-- ==== Sys2Proof/Word.lean ====
section
/-! DEFINITION. The bit-vector types of the engine (spec R6: a word is 32 bits, a byte 8 bits, the identifier 16 bits; R41: a command word
is 64 bits; R43: a response word is 40 bits). -/

namespace Sys2Proof

/-- One byte of the frame memory; also a varint group, an opcode, a width field, a status code (R6, R41, R43). -/
abbrev Byte := BitVec 8

/-- The 16-bit message-type identifier (R6) and the `aux` field (R41). -/
abbrev Half := BitVec 16

/-- A word of the word memory, a cursor register, an `imm` operand or a result (R6, R12, R41, R43). -/
abbrev Word := BitVec 32

/-- A command word (R41). -/
abbrev CommandWord := BitVec 64

/-- A response word (R43). -/
abbrev ResponseWord := BitVec 40

end Sys2Proof
end

