-- ==== Sys2Proof/Syntax.lean ====
section
/-! DEFINITION. The 29 commands of the opcode map (spec R44), one constructor each, with the operands their format carries (R42). Bits of an
operand that a command ignores are kept as the word carries them. -/

namespace Sys2Proof

/-- A command, as R42 lays out its operands: `n` a width or a CSR number (8 bits), `ident` the identifier (16 bits), the rest the 32-bit
`imm`. -/
inductive Instr where
  /-- NEW (R52), format AI: acquire a buffer of `capBytes` bytes and write the identifier. -/
  | new (capBytes : Word) (ident : Half)
  /-- RELEASE (R53), format Z. -/
  | release
  /-- RDCSR (R54), format C: read the CSR numbered `n`. -/
  | rdcsr (n : Byte)
  /-- ADD (R58), format WI: write the low `n` bits of `value`. -/
  | add (n : Byte) (value : Word)
  /-- READ (R60), format W. -/
  | read (n : Byte)
  /-- PEEK (R59), format W. -/
  | peek (n : Byte)
  /-- CLEAR (R61), format Z. -/
  | clear
  /-- GETLEN (R62), format Z. -/
  | getlen
  /-- ISFIN (R63), format Z. -/
  | isfin
  /-- ADDBOOL (R66), format I. -/
  | addbool (imm : Word)
  /-- READBOOL (R67), format Z. -/
  | readbool
  /-- PEEKBOOL (R68), format Z. -/
  | peekbool
  /-- ADDBYTE (R69), format I. -/
  | addbyte (imm : Word)
  /-- READBYTE (R70), format Z. -/
  | readbyte
  /-- PEEKBYTE (R71), format Z. -/
  | peekbyte
  /-- ADDSHORT (R72), format I. -/
  | addshort (imm : Word)
  /-- READSHORT (R73), format Z. -/
  | readshort
  /-- PEEKSHORT (R74), format Z. -/
  | peekshort
  /-- ADDUSHORT (R75), format I. -/
  | addushort (imm : Word)
  /-- READUSHORT (R76), format Z. -/
  | readushort
  /-- PEEKUSHORT (R77), format Z. -/
  | peekushort
  /-- ADDUINT (R80), format I. -/
  | adduint (imm : Word)
  /-- READUINT (R81), format Z. -/
  | readuint
  /-- PEEKUINT (R82), format Z. -/
  | peekuint
  /-- ADDINT (R86), format I. -/
  | addint (imm : Word)
  /-- READINT (R87), format Z. -/
  | readint
  /-- PEEKINT (R88), format Z. -/
  | peekint
  /-- TOARRAY (R92), format I: serialise into at most `dstLen` bytes of the frame memory. -/
  | toarray (dstLen : Word)
  /-- FROMARRAY (R93), format I: rebuild a buffer from the first `length` bytes of the frame memory. -/
  | fromarray (length : Word)
  deriving DecidableEq, Repr

/-- The pseudo-instruction READID of R49: READ 16. -/
def Instr.readId : Instr := .read 16

/-- The pseudo-instruction PEEKID of R49: PEEK 16. -/
def Instr.peekId : Instr := .peek 16

end Sys2Proof
end

