-- ==== Sys2Proof/WellFormed.lean ====
section
/-! DEFINITION. Which commands a legal command word can carry. The types already bound every field to its width (R41); the one condition left
is R45 (c): RDCSR exists for the CSR numbers 0 to 6 only. The width of ADD, READ and PEEK is no decode condition (R44). -/

namespace Sys2Proof

/-- R45 (c): the CSR number of RDCSR is at most 6. Every other command is legal with every operand its fields can hold. -/
def Instr.wellFormed : Instr → Bool
  | .rdcsr n => n ≤ 6
  | _ => true

/-- A command that some legal command word carries. -/
abbrev Instr.WellFormed (i : Instr) : Prop := i.wellFormed = true

end Sys2Proof
end

