-- ==== Sys2Proof/Decode.lean ====
section
/-! DEFINITION. The command word (spec R41, R42), the opcode map as a table (R44), the decoder with the illegal encodings rejected by name
(R45, R46), and the encoder (R48: `op << 56 | n << 48 | aux << 32 | imm`). -/

namespace Sys2Proof

/-- The `op` field, bits 63:56 (R41). -/
def opField (w : CommandWord) : Byte := w.extractLsb' 56 8

/-- The `n` field, bits 55:48 (R41). -/
def nField (w : CommandWord) : Byte := w.extractLsb' 48 8

/-- The `aux` field, bits 47:32 (R41). -/
def auxField (w : CommandWord) : Half := w.extractLsb' 32 16

/-- The `imm` field, bits 31:0 (R41). -/
def immField (w : CommandWord) : Word := w.extractLsb' 0 32

/-- The command word with these four fields (R41, R48). -/
def commandWord (op n : Byte) (aux : Half) (imm : Word) : CommandWord := op ++ n ++ aux ++ imm

/-- The six formats of R42: which of `n`, `aux`, `imm` carry an operand. -/
inductive Format where
  /-- no operand -/
  | Z
  /-- a width in `n` -/
  | W
  /-- a width in `n` and a value in `imm` -/
  | WI
  /-- an operand in `imm` -/
  | I
  /-- an identifier in `aux` and a byte count in `imm` -/
  | AI
  /-- a CSR number in `n` -/
  | C
  deriving DecidableEq, Repr

/-- One row of the opcode map (R44). -/
structure OpcodeRow where
  /-- The opcode. -/
  op : Byte
  /-- The mnemonic. -/
  mnemonic : String
  /-- The format of R42. -/
  format : Format
  /-- The fixed bits. -/
  matchBits : CommandWord
  /-- Which bits are fixed. -/
  mask : CommandWord
  deriving DecidableEq, Repr

/-- The opcode map of R44, row by row: NEW to ISFIN. -/
def opcodeTableRaw : List OpcodeRow :=
  [ ⟨0x01, "NEW", .AI, 0x0100000000000000, 0xFFFF000000000000⟩
  , ⟨0x02, "RELEASE", .Z, 0x0200000000000000, 0xFFFFFFFFFFFFFFFF⟩
  , ⟨0x03, "RDCSR", .C, 0x0300000000000000, 0xFF00FFFFFFFFFFFF⟩
  , ⟨0x10, "ADD", .WI, 0x1000000000000000, 0xFF00FFFF00000000⟩
  , ⟨0x11, "READ", .W, 0x1100000000000000, 0xFF00FFFFFFFFFFFF⟩
  , ⟨0x12, "PEEK", .W, 0x1200000000000000, 0xFF00FFFFFFFFFFFF⟩
  , ⟨0x13, "CLEAR", .Z, 0x1300000000000000, 0xFFFFFFFFFFFFFFFF⟩
  , ⟨0x14, "GETLEN", .Z, 0x1400000000000000, 0xFFFFFFFFFFFFFFFF⟩
  , ⟨0x15, "ISFIN", .Z, 0x1500000000000000, 0xFFFFFFFFFFFFFFFF⟩ ]

/-- The opcode map of R44, row by row: the typed scalars. -/
def opcodeTableTyped : List OpcodeRow :=
  [ ⟨0x20, "ADDBOOL", .I, 0x2000000000000000, 0xFFFFFFFF00000000⟩
  , ⟨0x21, "READBOOL", .Z, 0x2100000000000000, 0xFFFFFFFFFFFFFFFF⟩
  , ⟨0x22, "PEEKBOOL", .Z, 0x2200000000000000, 0xFFFFFFFFFFFFFFFF⟩
  , ⟨0x24, "ADDBYTE", .I, 0x2400000000000000, 0xFFFFFFFF00000000⟩
  , ⟨0x25, "READBYTE", .Z, 0x2500000000000000, 0xFFFFFFFFFFFFFFFF⟩
  , ⟨0x26, "PEEKBYTE", .Z, 0x2600000000000000, 0xFFFFFFFFFFFFFFFF⟩
  , ⟨0x28, "ADDSHORT", .I, 0x2800000000000000, 0xFFFFFFFF00000000⟩
  , ⟨0x29, "READSHORT", .Z, 0x2900000000000000, 0xFFFFFFFFFFFFFFFF⟩
  , ⟨0x2A, "PEEKSHORT", .Z, 0x2A00000000000000, 0xFFFFFFFFFFFFFFFF⟩
  , ⟨0x2C, "ADDUSHORT", .I, 0x2C00000000000000, 0xFFFFFFFF00000000⟩
  , ⟨0x2D, "READUSHORT", .Z, 0x2D00000000000000, 0xFFFFFFFFFFFFFFFF⟩
  , ⟨0x2E, "PEEKUSHORT", .Z, 0x2E00000000000000, 0xFFFFFFFFFFFFFFFF⟩ ]

/-- The opcode map of R44, row by row: the integer codecs and the framing. -/
def opcodeTableCodec : List OpcodeRow :=
  [ ⟨0x30, "ADDUINT", .I, 0x3000000000000000, 0xFFFFFFFF00000000⟩
  , ⟨0x31, "READUINT", .Z, 0x3100000000000000, 0xFFFFFFFFFFFFFFFF⟩
  , ⟨0x32, "PEEKUINT", .Z, 0x3200000000000000, 0xFFFFFFFFFFFFFFFF⟩
  , ⟨0x40, "ADDINT", .I, 0x4000000000000000, 0xFFFFFFFF00000000⟩
  , ⟨0x41, "READINT", .Z, 0x4100000000000000, 0xFFFFFFFFFFFFFFFF⟩
  , ⟨0x42, "PEEKINT", .Z, 0x4200000000000000, 0xFFFFFFFFFFFFFFFF⟩
  , ⟨0x50, "TOARRAY", .I, 0x5000000000000000, 0xFFFFFFFF00000000⟩
  , ⟨0x51, "FROMARRAY", .I, 0x5100000000000000, 0xFFFFFFFF00000000⟩ ]

/-- The opcode map of R44: 29 rows. -/
def opcodeTable : List OpcodeRow := opcodeTableRaw ++ opcodeTableTyped ++ opcodeTableCodec

/-- Why a command word is illegal (R45). -/
inductive DecodeError where
  /-- R45 (a): `op` is none of the 29 opcodes. -/
  | unknownOpcode (op : Byte)
  /-- R45 (b): a field that carries no operand in the command's format is not zero. -/
  | reservedField (op : Byte)
  /-- R45 (c): RDCSR of a CSR number above 6. -/
  | noSuchCsr (n : Byte)
  deriving DecidableEq, Repr

/-- R45 (b): the command `i` where its reserved fields are zero (`ok`), the rejection by name where one is not. -/
def ifReservedZero (op : Byte) (ok : Bool) (i : Instr) : Except DecodeError Instr :=
  if ok then .ok i else .error (.reservedField op)

/-- The command a command word carries, by the opcode map of R44 and the formats of R42; an illegal word is rejected by name (R45). Total:
every 64-bit word is one of the 29 commands or illegal (R46). -/
def decode (w : CommandWord) : Except DecodeError Instr :=
  let op := opField w
  let n := nField w
  let aux := auxField w
  let imm := immField w
  let z := n == 0 && aux == 0 && imm == 0
  let formW := aux == 0 && imm == 0
  let formI := n == 0 && aux == 0
  match op with
  | 0x01#8 => ifReservedZero op (n == 0) (.new imm aux)
  | 0x02#8 => ifReservedZero op z .release
  | 0x03#8 => if formW then (if n ≤ 6 then .ok (.rdcsr n) else .error (.noSuchCsr n)) else .error (.reservedField op)
  | 0x10#8 => ifReservedZero op (aux == 0) (.add n imm)
  | 0x11#8 => ifReservedZero op formW (.read n)
  | 0x12#8 => ifReservedZero op formW (.peek n)
  | 0x13#8 => ifReservedZero op z .clear
  | 0x14#8 => ifReservedZero op z .getlen
  | 0x15#8 => ifReservedZero op z .isfin
  | 0x20#8 => ifReservedZero op formI (.addbool imm)
  | 0x21#8 => ifReservedZero op z .readbool
  | 0x22#8 => ifReservedZero op z .peekbool
  | 0x24#8 => ifReservedZero op formI (.addbyte imm)
  | 0x25#8 => ifReservedZero op z .readbyte
  | 0x26#8 => ifReservedZero op z .peekbyte
  | 0x28#8 => ifReservedZero op formI (.addshort imm)
  | 0x29#8 => ifReservedZero op z .readshort
  | 0x2A#8 => ifReservedZero op z .peekshort
  | 0x2C#8 => ifReservedZero op formI (.addushort imm)
  | 0x2D#8 => ifReservedZero op z .readushort
  | 0x2E#8 => ifReservedZero op z .peekushort
  | 0x30#8 => ifReservedZero op formI (.adduint imm)
  | 0x31#8 => ifReservedZero op z .readuint
  | 0x32#8 => ifReservedZero op z .peekuint
  | 0x40#8 => ifReservedZero op formI (.addint imm)
  | 0x41#8 => ifReservedZero op z .readint
  | 0x42#8 => ifReservedZero op z .peekint
  | 0x50#8 => ifReservedZero op formI (.toarray imm)
  | 0x51#8 => ifReservedZero op formI (.fromarray imm)
  | _ => .error (.unknownOpcode op)

/-- The command word of a command (R42, R44, R48). -/
def encode : Instr → CommandWord
  | .new capBytes ident => commandWord 0x01 0 ident capBytes
  | .release => commandWord 0x02 0 0 0
  | .rdcsr n => commandWord 0x03 n 0 0
  | .add n value => commandWord 0x10 n 0 value
  | .read n => commandWord 0x11 n 0 0
  | .peek n => commandWord 0x12 n 0 0
  | .clear => commandWord 0x13 0 0 0
  | .getlen => commandWord 0x14 0 0 0
  | .isfin => commandWord 0x15 0 0 0
  | .addbool imm => commandWord 0x20 0 0 imm
  | .readbool => commandWord 0x21 0 0 0
  | .peekbool => commandWord 0x22 0 0 0
  | .addbyte imm => commandWord 0x24 0 0 imm
  | .readbyte => commandWord 0x25 0 0 0
  | .peekbyte => commandWord 0x26 0 0 0
  | .addshort imm => commandWord 0x28 0 0 imm
  | .readshort => commandWord 0x29 0 0 0
  | .peekshort => commandWord 0x2A 0 0 0
  | .addushort imm => commandWord 0x2C 0 0 imm
  | .readushort => commandWord 0x2D 0 0 0
  | .peekushort => commandWord 0x2E 0 0 0
  | .adduint imm => commandWord 0x30 0 0 imm
  | .readuint => commandWord 0x31 0 0 0
  | .peekuint => commandWord 0x32 0 0 0
  | .addint imm => commandWord 0x40 0 0 imm
  | .readint => commandWord 0x41 0 0 0
  | .peekint => commandWord 0x42 0 0 0
  | .toarray dstLen => commandWord 0x50 0 0 dstLen
  | .fromarray length => commandWord 0x51 0 0 length

/-- R45, as the rule words it and without the decoder: the word is illegal when (a) no row of the opcode map has its `op`, (b) it
differs from its row's fixed bits, or (c) it is RDCSR of a CSR number above 6. -/
def illegalWord (w : CommandWord) : Bool :=
  !(opcodeTable.any fun r => r.op == opField w)
    || opcodeTable.any (fun r => r.op == opField w && (w &&& r.mask) != r.matchBits)
    || (opField w == 0x03 && !(nField w ≤ 6))

/-- The instruction the decoder reads from the word with number `w`; a command is one 64-bit word and nothing follows it (R41, R47). -/
def decodeTableWord (nbits w : Nat) : Option Instr :=
  match decode (BitVec.ofNat 64 (w % 2 ^ nbits)) with
  | .ok i => some i
  | .error _ => none

end Sys2Proof
end

