-- ==== Sys2Proof/Config.lean ====
section
/-! DEFINITION. What an implementation fixes (the parameters WCAP and FCAP of R5) and the two free values of the machine: what the word
memory and the frame memory hold at power-up (R26: unspecified). -/

namespace Sys2Proof

/-- The two implementation parameters of R5, read by RDCSR as CSRs 5 and 6 (R19). -/
structure Config where
  /-- Words of the word memory, guard word included (R5). -/
  wcap : Word
  /-- Bytes of the frame memory (R5). -/
  fcap : Word
  deriving DecidableEq, Repr

/-- The default configuration of R5: WCAP = 257, FCAP = 1024. -/
def Config.default : Config := ⟨257, 1024⟩

/-- The constraints of R5: `WCAP >= 2`, `FCAP >= 1`, `FCAP <= 4 * (WCAP - 1)`, `WCAP <= 2^26`. -/
abbrev Config.wf (c : Config) : Prop :=
  2 ≤ c.wcap.toNat ∧ 1 ≤ c.fcap.toNat ∧ c.fcap.toNat ≤ 4 * (c.wcap.toNat - 1) ∧ c.wcap.toNat ≤ 2 ^ 26

/-- FREE VALUE (log 4). What word `i` of the word memory holds before anything writes it: unspecified by R26, and R23 says that no
command can observe it. No body: nothing can be proved of it. -/
opaque Config.powerUpWord : Nat → Word

/-- FREE VALUE (log 5). What byte `a` of the frame memory holds before anything writes it: unspecified by R26, the host's business (U12).
No body: nothing can be proved of it. -/
opaque Config.powerUpByte : Nat → Byte

end Sys2Proof
end

