-- ==== Sys2Proof/Machine/Memory.lean ====
section
/-! DEFINITION. A memory as plain data: a list of (address, cell) pairs with strictly rising addresses. The frame memory has byte cells
(`Memory Byte` is `List Host.Cell`), the word memory word cells, because the spec addresses it by word index (R27). What an unlisted address
reads as is `none`, no value (log 6): a cell that nothing has written. -/

namespace Sys2Proof.Machine

/-- A memory whose cells hold an `α`, keyed by address. -/
abbrev Memory (α : Type) := List (Nat × α)

/-- The cell at address `a`: `none` where nothing has been written. -/
def Memory.read {α : Type} : Memory α → Nat → Option α
  | [], _ => none
  | (b, v) :: m, a => if a = b then some v else Memory.read m a

/-- Write `v` at address `a`, keeping the addresses strictly rising. -/
def Memory.write {α : Type} : Memory α → Nat → α → Memory α
  | [], a, v => [(a, v)]
  | (b, w) :: m, a, v =>
    if a < b then (a, v) :: (b, w) :: m
    else if a = b then (a, v) :: m
    else (b, w) :: Memory.write m a v

/-- The canonical form: addresses strictly rising. No entry can equal what an unlisted address reads as, since that is no value. -/
abbrev Memory.wf {α : Type} (m : Memory α) : Prop := m.Pairwise fun c d => c.1 < d.1

/-- Every listed address lies below `bound`. -/
abbrev Memory.below {α : Type} (m : Memory α) (bound : Nat) : Prop := ∀ c ∈ m, c.1 < bound

end Sys2Proof.Machine
end

