-- ==== Sys2Proof/Machine/State.lean ====
section
/-! DEFINITION. The architectural state of one engine (spec file 10_state.md, R12 to R26), the ways a step can stop, and the state after
reset. -/

namespace Sys2Proof.Machine

/-- The exceptions of R95. Raising one is an outcome of the command, not a stop of the machine (R96). -/
inductive Exc where
  /-- 0x01, decode error: five varint groups and the fifth still has its continuation bit set (R79). -/
  | varintTooLong
  /-- 0x02, decode error: FROMARRAY of no bytes, or of a last byte of zero (R93). -/
  | badFrame
  /-- 0x03, decode error: a fetch that would pass WP (R98). -/
  | readOverrun
  /-- 0x04, decode error: GETLEN of an empty buffer (R62). -/
  | lengthUndefined
  /-- 0x81, fatal: no buffer is live (R98). -/
  | notLive
  /-- 0x82, fatal: a raw width outside 1 to 32 (R98). -/
  | badWidth
  /-- 0x83, fatal: a buffer is already live (R98). -/
  | alreadyLive
  /-- 0x84, fatal: the bits to be written do not fit (R98). -/
  | capacityExceeded
  /-- 0x85, fatal: an illegal command word (R45). -/
  | illegalCommand
  /-- 0x86, fatal: a request beyond WCAP or FCAP (R95). -/
  | resourceLimit
  deriving DecidableEq, Repr

/-- The ways the machine itself stops. Both are accesses to an address that the spec says does not exist; no state that meets the invariant
of R22 reaches the first, and only a host write can raise the second from such a state. -/
inductive Fault where
  /-- Raised by the word memory's reads and writes at a word index that is not below WCAP (R27). Safe: the spec gives such an access no
  effect, and the checks of R98 exclude it. -/
  | wordOutside (index : Nat)
  /-- Raised by the frame memory's reads and writes, the engine's and the host's, at a byte index that is not below FCAP (R27). Safe: the
  spec gives such an access no effect. -/
  | frameOutside (address : Nat)
  deriving DecidableEq, Repr

/-- The reasons to refuse. No meaning of this model refuses. -/
inductive Refusal where
  /-- Raised by an arm of `exec` whose instruction has no meaning yet: none in this model. Safe. -/
  | notModelled (mnemonic : String)
  deriving DecidableEq, Repr

/-- Why a command's algorithm ends early: an exception of R95 or a fault of the machine. -/
inductive Stop where
  /-- An exception is raised (R96). -/
  | exc (e : Exc)
  /-- The machine stops. -/
  | fault (f : Fault)
  deriving DecidableEq, Repr

/-- A move of the host agent (R7, R38, R106). Its reads change nothing and are no moves. -/
inductive HostMove where
  /-- Issue a command word on the command channel (R25). -/
  | command (w : CommandWord)
  /-- Write one byte of the frame memory (R17, R38). -/
  | writeFrame (address : Nat) (value : Byte)
  /-- Assert reset (R106). -/
  | reset
  deriving DecidableEq, Repr

/-- The state of one engine and what its host will do next. -/
structure State where
  /-- The parameters, CSRs 5 and 6 (R5, R19): no step changes them (log 3). -/
  cfg : Config
  /-- `RP`, CSR 0 (R13): the read cursor, in bits. -/
  rp : Word
  /-- `WP`, CSR 1 (R14): the write cursor, in bits. -/
  wp : Word
  /-- `CAPW`, CSR 2 (R15): data words of the live buffer. -/
  capw : Word
  /-- `LIVE`, bit 0 of CSR 3 (R16). -/
  live : Bool
  /-- `FATAL`, bit 1 of CSR 3 (R16, R97). -/
  fatal : Bool
  /-- `CAUSE`, bits 7:0 of CSR 4 (R18): the code of the last exception; its bits 31:8 read as zero (R12). -/
  cause : Byte
  /-- `W` (R20), by word index; an unlisted word has not been written. -/
  words : List (Nat × Word)
  /-- `F` (R17), by byte index; an unlisted byte has not been written. -/
  frame : List Host.Cell
  /-- The response last delivered on the response channel (R25, R43), `none` before any (log 8). -/
  rsp : Option ResponseWord
  /-- The model's own field: the host's moves to come, oldest first (log 1). -/
  host : List HostMove
  deriving DecidableEq, Repr

/-- The machine right after reset with the parameters `c` (R26): all CSRs zero, both memories unspecified, no command in progress. -/
def State.resetWith (c : Config) : State :=
  { cfg := c, rp := 0, wp := 0, capw := 0, live := false, fatal := false, cause := 0, words := [], frame := [], rsp := none, host := [] }

/-- The machine right after reset (R26) with the default parameters of R5 (log 3). -/
def State.reset : State := State.resetWith Config.default

end Sys2Proof.Machine
end

