-- ==== Sys2Proof/Machine/Ops.lean ====
section
/-! DEFINITION. The operations every command is made of: the response (spec R43), raising an exception (R95 to R97), the execution template
(R51), the precondition checks (R98), the word memory and the bit datapath (R20, R28, R56, R57), the frame memory (R17), reset (R107) and
the host's moves (R7, R38). There is no return from an exception to model: R103. -/

namespace Sys2Proof.Machine

/-! ## Response -/

/-- Status OK (R43). -/
def statusOk : Byte := 0x00

/-- Status Dead (R100). -/
def statusDead : Byte := 0xFF

/-- The response word of R43: `status` in bits 39:32, `result` in bits 31:0. -/
def responseWord (status : Byte) (result : Word) : ResponseWord := status ++ result

/-- The `status` field of a response word (R43). -/
def responseStatus (r : ResponseWord) : Byte := r.extractLsb' 32 8

/-- The `result` field of a response word (R43). -/
def responseResult (r : ResponseWord) : Word := r.extractLsb' 0 32

/-- `respond(status, result)` of R8: the command ends with this response. -/
def respond (s : State) (status : Byte) (result : Word) : State :=
  { s with rsp := some (responseWord status result) }

/-! ## Exceptions -/

/-- The code of an exception (R95). -/
def Exc.code : Exc → Byte
  | .varintTooLong => 0x01
  | .badFrame => 0x02
  | .readOverrun => 0x03
  | .lengthUndefined => 0x04
  | .notLive => 0x81
  | .badWidth => 0x82
  | .alreadyLive => 0x83
  | .capacityExceeded => 0x84
  | .illegalCommand => 0x85
  | .resourceLimit => 0x86

/-- The fatal class of R97. -/
def Exc.isFatal : Exc → Bool
  | .varintTooLong | .badFrame | .readOverrun | .lengthUndefined => false
  | .notLive | .badWidth | .alreadyLive | .capacityExceeded | .illegalCommand | .resourceLimit => true

/-- Taking an exception (R96, R102): CAUSE takes its code, FATAL is set if it is of the fatal class, the response carries the code and
result 0; `s` is the state before the command, and nothing else of it changes. -/
def raise (s : State) (e : Exc) : State :=
  respond { s with cause := e.code, fatal := s.fatal || e.isFatal } e.code 0

/-- `raise E` inside an algorithm: abandon it (R8). -/
def throwExc {α : Type} (e : Exc) : Except Stop α := .error (.exc e)

/-- An access to an address that does not exist, inside an algorithm. -/
def throwFault {α : Type} (f : Fault) : Except Stop α := .error (.fault f)

/-! ## The execution template of R51 -/

/-- How a command issued in state `s` ends: on success with its new state and `respond(OK, result)`; on an exception in the state before the
command but for CAUSE and FATAL (R96: every exception is precise). -/
def complete (s : State) : Except Stop (State × Word) → Host.Outcome State Fault Refusal
  | .ok (t, result) => .next (respond t statusOk result)
  | .error (.exc e) => .next (raise s e)
  | .error (.fault f) => .fault f

/-- Step 1 of R51, for every command but a legal RDCSR: while FATAL is set the answer is Dead and nothing changes (R100). Otherwise the body,
steps 3 to 5. -/
def command (s : State) (body : Except Stop (State × Word)) : Host.Outcome State Fault Refusal :=
  if s.fatal then .next (respond s statusDead 0) else complete s body

/-- Steps 1 and 2 of R51 for an illegal word (R45): Dead while FATAL is set, else IllegalCommand. -/
def illegalCommand (s : State) : Host.Outcome State Fault Refusal := command s (throwExc .illegalCommand)

/-! ## The checks of R98 -/

/-- `CheckLive`. -/
def checkLive (s : State) : Except Stop Unit := if s.live then .ok () else throwExc .notLive

/-- `CheckNotLive`. -/
def checkNotLive (s : State) : Except Stop Unit := if s.live then throwExc .alreadyLive else .ok ()

/-- `CheckWidth(n)`. -/
def checkWidth (n : Byte) : Except Stop Unit :=
  if n.toNat = 0 ∨ n.toNat > 32 then throwExc .badWidth else .ok ()

/-- `CheckRoom(k)`, on unbounded integers. -/
def checkRoom (s : State) (k : Nat) : Except Stop Unit :=
  if s.wp.toNat + k > 32 * s.capw.toNat then throwExc .capacityExceeded else .ok ()

/-- `CheckAvail(pos, k)`, on unbounded integers. -/
def checkAvail (s : State) (pos k : Nat) : Except Stop Unit :=
  if pos + k > s.wp.toNat then throwExc .readOverrun else .ok ()

/-- The ResourceLimit check of TOARRAY and FROMARRAY (R95): a byte count above FCAP. -/
def checkFrameSize (s : State) (length : Word) : Except Stop Unit :=
  if length.toNat > s.cfg.fcap.toNat then throwExc .resourceLimit else .ok ()

/-! ## The word memory -/

/-- `mask(n)` of R8 on 32 bits. -/
def mask (n : Nat) : Word := BitVec.ofNat 32 (2 ^ n - 1)

/-- The word that holds bit position `p` (R28): `p >> 5`. -/
def wordIndex (p : Nat) : Nat := p / 32

/-- Where in its word bit position `p` lies (R28): `p & 31`. -/
def bitOffset (p : Nat) : Nat := p % 32

/-- What word `i` holds: what was last written there, else the free power-up value (R26, log 4). -/
def State.word (s : State) (i : Nat) : Word := (Memory.read s.words i).getD (Config.powerUpWord i)

/-- The bit at bit position `p` (R28). -/
def State.bit (s : State) (p : Nat) : Bool := (s.word (wordIndex p)).getLsbD (bitOffset p)

/-- Read `W[i]`; a word index that is not below WCAP does not exist (R27). -/
def loadWord (s : State) (i : Nat) : Except Stop Word :=
  if i < s.cfg.wcap.toNat then .ok (s.word i) else throwFault (.wordOutside i)

/-- `W[i] <- v`; a word index that is not below WCAP does not exist (R27). -/
def storeWord (s : State) (i : Nat) (v : Word) : Except Stop State :=
  if i < s.cfg.wcap.toNat then .ok { s with words := Memory.write s.words i v } else throwFault (.wordOutside i)

/-- `W[i] & mask(o)` of R56, the existing bits below the offset. At offset 0 there are none and the word is not looked at (log 14). -/
def keepBelow (w : Word) (o : Nat) : Word := if o = 0 then 0 else w &&& mask o

/-- The 64-bit staging value of R56: the existing bits below offset `o`, the field above them, zeros above the field. -/
def staging (w : Word) (o n : Nat) (v : Word) : BitVec 64 :=
  (keepBelow w o).setWidth 64 ||| ((v &&& mask n).setWidth 64 <<< o)

/-- `BitAdd(n, v)` (R56): write the low `n` bits of `v` at the write cursor and advance it; both words are written. -/
def bitAdd (s : State) (n : Nat) (v : Word) : Except Stop State := do
  let i := wordIndex s.wp.toNat
  let q := staging (s.word i) (bitOffset s.wp.toNat) n v
  let s ← storeWord s i (q.extractLsb' 0 32)
  let s ← storeWord s (i + 1) (q.extractLsb' 32 32)
  return { s with wp := s.wp + BitVec.ofNat 32 n }

/-- The second word of a fetch (R57): word `i + 1` inside the backing array `W[0 .. CAPW]`, zero outside it. -/
def highWord (s : State) (i : Nat) : Except Stop Word :=
  if i + 1 ≤ s.capw.toNat then loadWord s (i + 1) else .ok 0

/-- The `n` bits at offset `o` of the two words `hi ++ lo`, zero-extended (R57). -/
def fieldOf (lo hi : Word) (o n : Nat) : Word := ((hi ++ lo : BitVec 64) >>> o).setWidth 32 &&& mask n

/-- `BitFetch(pos, n)` (R57): the `n` bits at bit position `pos`. A field that ends inside its first word takes no bit of the second, and
the model does not look at the second then: it may be a word that nothing has written (log 14). -/
def bitFetch (s : State) (pos n : Nat) : Except Stop Word := do
  let i := wordIndex pos
  let o := bitOffset pos
  let lo ← loadWord s i
  let hi ← if o + n ≤ 32 then .ok 0 else highWord s i
  return fieldOf lo hi o n

/-- `for each b in g, in order: BitAdd(8, zext_32(b))` (R80). -/
def bitAddBytes (s : State) : List Byte → Except Stop State
  | [] => .ok s
  | b :: g => do
    let s ← bitAdd s 8 (b.setWidth 32)
    bitAddBytes s g

/-- The number of whole bytes that hold `p` bits, `((p - 1) >> 3) + 1` (R62), for `p >= 1`. -/
def byteLength (p : Nat) : Nat := (p - 1) / 8 + 1

/-! ## The frame memory -/

/-- What byte `a` of the frame memory holds: what was last written there, else the free power-up value (R26, U12, log 5). -/
def State.frameByte (s : State) (a : Nat) : Byte := (Memory.read s.frame a).getD (Config.powerUpByte a)

/-- `MemRead(a, 1)` (R8); a byte index that is not below FCAP does not exist (R27). -/
def memRead (s : State) (a : Nat) : Except Stop Byte :=
  if a < s.cfg.fcap.toNat then .ok (s.frameByte a) else throwFault (.frameOutside a)

/-- `MemWrite(a, 1, b)` (R8); a byte index that is not below FCAP does not exist (R27). -/
def memWrite (s : State) (a : Nat) (b : Byte) : Except Stop State :=
  if a < s.cfg.fcap.toNat then .ok { s with frame := Memory.write s.frame a b } else throwFault (.frameOutside a)

/-! ## Reset and the host's moves -/

/-- The effects of reset (R107): every CSR takes its reset value; the word memory and the frame memory are not written, and the parameters
stay. The command channel is as the host drives it; no response is pending (R26, log 8). -/
def applyReset (s : State) : State :=
  { State.resetWith s.cfg with words := s.words, frame := s.frame, host := s.host }

/-- The host writes one byte of the frame memory between commands (R17, R38). -/
def hostWrite (s : State) (a : Nat) (b : Byte) : Host.Outcome State Fault Refusal :=
  if a < s.cfg.fcap.toNat then .next { s with frame := Memory.write s.frame a b } else .fault (.frameOutside a)

/-- The host's next move, and the state with that move taken; none while the engine is idle (R7, R25). -/
def nextMove (s : State) : Option (HostMove × State) :=
  match s.host with
  | [] => none
  | m :: rest => some (m, { s with host := rest })

end Sys2Proof.Machine
end

