-- ==== Sys2Proof/Machine/Codec.lean ====
section
/-! DEFINITION. The codec functions: the varint of spec file 43_varint.md (R78, R79), the zig-zag map of 44_zigzag.md (R84, R85) and the bit
scan of 45_framing.md (R90). -/

namespace Sys2Proof.Machine

/-- `VarintGroups(v)` (R78) with a bound on the number of groups. The bound 5 is never what ends it: 35 bits hold a 32-bit value. -/
def varintGroupsFrom : Nat → Word → List Byte
  | 0, _ => []
  | k + 1, v =>
    let b : Byte := (v.extractLsb' 0 7).setWidth 8
    let rest := v >>> 7
    if rest = 0 then [b] else (b ||| 0x80) :: varintGroupsFrom k rest

/-- `VarintGroups(v)` (R78): the groups that encode `v`, least significant first, at least one. -/
def varintGroups (v : Word) : List Byte := varintGroupsFrom 5 v

/-- `res | trunc_32(zext_64(b[6:0]) << shift)` (R79). -/
def addGroup (res : Word) (b : Byte) (shift : Nat) : Word :=
  res ||| (((b.extractLsb' 0 7).setWidth 64 : BitVec 64) <<< shift).setWidth 32

/-- The loop of `VarintScan` (R79) with `k` fetches left: the value and the position after the last group. -/
def varintScanFrom (s : State) : Nat → Nat → Word → Nat → Except Stop (Word × Nat)
  | 0, _, _, _ => throwExc .varintTooLong
  | k + 1, pos, res, shift => do
    checkAvail s pos 8
    let w ← bitFetch s pos 8
    let b : Byte := w.setWidth 8
    let res := addGroup res b shift
    if b.getLsbD 7 then varintScanFrom s k (pos + 8) res (shift + 7) else return (res, pos + 8)

/-- `VarintScan()` (R79): decode one varint at the read cursor on a private position; at most five groups. -/
def varintScan (s : State) : Except Stop (Word × Nat) := varintScanFrom s 5 s.rp.toNat 0 0

/-- `ZigZag(v)` (R84): `trunc_32(v << 1) ^ (v >>s 31)`. -/
def zigZag (v : Word) : Word := (v <<< 1) ^^^ (v.sshiftRight 31)

/-- `UnZigZag(c)` (R85): `(c >> 1) ^ (0 - zext_32(c[0]))`. -/
def unZigZag (c : Word) : Word := (c >>> 1) ^^^ (0 - (c.extractLsb' 0 1).setWidth 32)

/-- `Hsb` (R90) among the low `k` bits: the 1-indexed position of the highest set one, 0 if none is set. -/
def hsbFrom (b : Byte) : Nat → Nat
  | 0 => 0
  | k + 1 => if b.getLsbD k then k + 1 else hsbFrom b k

/-- `Hsb(b)` (R90): the 1-indexed position of the highest set bit of `b`; 0 for `b = 0`. -/
def hsb (b : Byte) : Nat := hsbFrom b 8

/-- The shared shape of the varint adds (R72, R75, R80, R86): room for all groups first, then the groups in order; result 0. -/
def addVarint (s : State) (v : Word) : Except Stop (State × Word) := do
  checkLive s
  let g := varintGroups v
  checkRoom s (8 * g.length)
  let s ← bitAddBytes s g
  return (s, 0)

/-- The shared shape of the varint reads (R73, R76, R81, R87): decode, commit RP, answer `f` of the decoded value. -/
def readVarint (s : State) (f : Word → Word) : Except Stop (State × Word) := do
  checkLive s
  let (c, pos) ← varintScan s
  return ({ s with rp := BitVec.ofNat 32 pos }, f c)

/-- The shared shape of the varint peeks (R74, R77, R82, R88): decode and answer `f` of the decoded value; nothing changes. -/
def peekVarint (s : State) (f : Word → Word) : Except Stop (State × Word) := do
  checkLive s
  let (c, _) ← varintScan s
  return (s, f c)

/-- The shared shape of the fixed-width adds (R66, R69, and R58 after its width check): room for `n` bits, then `BitAdd`; result 0. -/
def addField (s : State) (n : Nat) (v : Word) : Except Stop (State × Word) := do
  checkRoom s n
  let s ← bitAdd s n v
  return (s, 0)

/-- The shared shape of the fixed-width reads (R67, R70, and R60 after its width check). -/
def readField (s : State) (n : Nat) : Except Stop (State × Word) := do
  checkAvail s s.rp.toNat n
  let r ← bitFetch s s.rp.toNat n
  return ({ s with rp := s.rp + BitVec.ofNat 32 n }, r)

/-- The shared shape of the fixed-width peeks (R68, R71, and R59 after its width check). -/
def peekField (s : State) (n : Nat) : Except Stop (State × Word) := do
  checkAvail s s.rp.toNat n
  let r ← bitFetch s s.rp.toNat n
  return (s, r)

end Sys2Proof.Machine
end

