-- ==== Sys2Proof/Machine/Operands.lean ====
section
/-! DEFINITION. The operand and result forms of the typed codecs (spec R42, R43, D17): which bits of `imm` an add takes, and how a decoded
value is narrowed into the 32-bit result. -/

namespace Sys2Proof.Machine

/-- ADDSHORT's operand (R72): `sext_32(imm[15:0])`. -/
def shortOperand (imm : Word) : Word := (imm.setWidth 16).signExtend 32

/-- ADDUSHORT's operand (R75): `zext_32(imm[15:0])`. -/
def ushortOperand (imm : Word) : Word := (imm.setWidth 16).setWidth 32

/-- READSHORT's result (R73): `sext_32(v[15:0])`. -/
def shortResult (v : Word) : Word := (v.setWidth 16).signExtend 32

/-- READUSHORT's result (R76): `zext_32(c[15:0])`. -/
def ushortResult (c : Word) : Word := (c.setWidth 16).setWidth 32

/-- The data words a byte count takes (R52, R93): `ceil(bytes / 4)`, on unbounded integers. -/
def wordsFor (bytes : Word) : Nat := (bytes.toNat + 3) / 4

end Sys2Proof.Machine
end

