-- ==== Sys2Proof/Machine/Framing.lean ====
section
/-! DEFINITION. Framing (spec file 45_framing.md): TOARRAY and FROMARRAY, little-endian between words and bytes (R29). -/

namespace Sys2Proof.Machine

/-- Byte `k` of a word, `w[8*k+7 : 8*k]` (R29). -/
def byteOf (w : Word) (k : Nat) : Byte := w.extractLsb' (8 * k) 8

/-- The first `k` bytes of word `w`, at index `i`, into `F[4*i ..]`, each one only below `dstLen` (R92: bounds-checked per byte). -/
def copyBytes (s : State) (dstLen i : Nat) (w : Word) : Nat → Except Stop State
  | 0 => .ok s
  | k + 1 => do
    let s ← copyBytes s dstLen i w k
    if 4 * i + k < dstLen then memWrite s (4 * i + k) (byteOf w k) else return s

/-- The first `nw` words into the frame memory, in order (R92). -/
def copyWords (s : State) (dstLen : Nat) : Nat → Except Stop State
  | 0 => .ok s
  | i + 1 => do
    let s ← copyWords s dstLen i
    let w ← loadWord s i
    copyBytes s dstLen i w 4

/-- TOARRAY (R92): append the sentinel, copy the words that hold valid bits into `F[0 .. dstLen-1]`, answer the byte length of the
post-sentinel cursor. -/
def execToarray (dstLen : Word) (s : State) : Host.Outcome State Fault Refusal :=
  command s do
    checkLive s
    checkFrameSize s dstLen
    checkRoom s 1
    let s ← bitAdd s 1 1
    let len := byteLength s.wp.toNat
    let nw := wordIndex (s.wp.toNat - 1) + 1
    let s ← copyWords s dstLen.toNat nw
    return (s, BitVec.ofNat 32 len)

/-- Byte `j` of the source of FROMARRAY (R93): bytes at and above `length` count as zero and are not read. -/
def sourceByte (s : State) (length j : Nat) : Except Stop Byte :=
  if j < length then memRead s j else .ok 0

/-- Word `i` of the source of FROMARRAY (R93), from its little-endian byte group. -/
def sourceWord (s : State) (length i : Nat) : Except Stop Word := do
  let b0 ← sourceByte s length (4 * i)
  let b1 ← sourceByte s length (4 * i + 1)
  let b2 ← sourceByte s length (4 * i + 2)
  let b3 ← sourceByte s length (4 * i + 3)
  return b3 ++ b2 ++ b1 ++ b0

/-- The first `nw` words of the source into the word memory, in order (R93). -/
def loadFrame (s : State) (length : Nat) : Nat → Except Stop State
  | 0 => .ok s
  | i + 1 => do
    let s ← loadFrame s length i
    let w ← sourceWord s length i
    storeWord s i w

/-- FROMARRAY (R93): acquire `ceil(length / 4)` data words, rebuild them from `F[0 .. length-1]`, recover the bit length from the highest set
bit of the last byte. -/
def execFromarray (length : Word) (s : State) : Host.Outcome State Fault Refusal :=
  command s do
    checkNotLive s
    checkFrameSize s length
    if length.toNat = 0 then throwExc .badFrame
    let last ← memRead s (length.toNat - 1)
    if last = 0 then throwExc .badFrame
    let capw := wordsFor length
    let s ← loadFrame { s with live := true, capw := BitVec.ofNat 32 capw, rp := 0 } length.toNat capw
    let wp := BitVec.ofNat 32 ((length.toNat - 1) * 8 + (hsb last - 1))
    return ({ s with wp := wp }, wp)

end Sys2Proof.Machine
end

