-- ==== Sys2Proof/Machine/Integers.lean ====
section
/-! DEFINITION. The integer codecs: the varint commands of spec file 43_varint.md and the zig-zag commands of 44_zigzag.md. -/

namespace Sys2Proof.Machine

/-- ADDUINT (R80). -/
def execAdduint (imm : Word) (s : State) : Host.Outcome State Fault Refusal :=
  command s (addVarint s imm)

/-- READUINT (R81). -/
def execReaduint (s : State) : Host.Outcome State Fault Refusal :=
  command s (readVarint s id)

/-- PEEKUINT (R82). -/
def execPeekuint (s : State) : Host.Outcome State Fault Refusal :=
  command s (peekVarint s id)

/-- ADDINT (R86): the zig-zag code of `imm`, as a varint. -/
def execAddint (imm : Word) (s : State) : Host.Outcome State Fault Refusal :=
  command s (addVarint s (zigZag imm))

/-- READINT (R87). -/
def execReadint (s : State) : Host.Outcome State Fault Refusal :=
  command s (readVarint s unZigZag)

/-- PEEKINT (R88). -/
def execPeekint (s : State) : Host.Outcome State Fault Refusal :=
  command s (peekVarint s unZigZag)

end Sys2Proof.Machine
end

