-- ==== Sys2Proof/Machine/Flags.lean ====
section
/-! DEFINITION. The flags and the status registers as RDCSR reads them (spec R12, R54). The engine has no condition codes: no command's result
depends on a flag but LIVE and FATAL. -/

namespace Sys2Proof.Machine

/-- STATUS, CSR 3 (R12, R54): `zext_32(FATAL ++ LIVE)`. -/
def statusWord (s : State) : Word := (BitVec.ofBool s.fatal ++ BitVec.ofBool s.live).setWidth 32

/-- CAUSE, CSR 4 (R12, R54): `zext_32(CAUSE)`. -/
def causeWord (s : State) : Word := s.cause.setWidth 32

/-- The value of CSR number `n` (R12, R54); numbers above 6 do not exist. -/
def csrValue (s : State) (n : Byte) : Option Word :=
  match n with
  | 0#8 => some s.rp
  | 1#8 => some s.wp
  | 2#8 => some s.capw
  | 3#8 => some (statusWord s)
  | 4#8 => some (causeWord s)
  | 5#8 => some s.cfg.wcap
  | 6#8 => some s.cfg.fcap
  | _ => none

/-- ISFIN's predicate (R63): the read cursor has reached the write cursor. -/
def finished (s : State) : Bool := s.rp == s.wp

end Sys2Proof.Machine
end

