-- ==== Sys2Proof/Machine/Lifecycle.lean ====
section
/-! DEFINITION. Lifecycle and system commands (spec file 40_lifecycle_system.md): NEW, RELEASE, RDCSR. -/

namespace Sys2Proof.Machine

/-- NEW (R52): acquire `ceil(capBytes / 4)` data words and write the identifier as a raw 16-bit field. -/
def execNew (capBytes : Word) (ident : Half) (s : State) : Host.Outcome State Fault Refusal :=
  command s do
    checkNotLive s
    let capw := wordsFor capBytes
    if capw + 1 > s.cfg.wcap.toNat then throwExc .resourceLimit
    if 16 > 32 * capw then throwExc .capacityExceeded
    let s ← bitAdd { s with live := true, capw := BitVec.ofNat 32 capw, rp := 0, wp := 0 } 16 (ident.setWidth 32)
    return (s, 0)

/-- RELEASE (R53): the buffer is released, the cursors and CAPW are zero; both memories stay. -/
def execRelease (s : State) : Host.Outcome State Fault Refusal :=
  command s do
    checkLive s
    return ({ s with live := false, rp := 0, wp := 0, capw := 0 }, 0)

/-- RDCSR (R54): the one command performed while FATAL is set (R51, R100). A CSR number above 6 is an illegal word (R45 (c)). -/
def execRdcsr (n : Byte) (s : State) : Host.Outcome State Fault Refusal :=
  match csrValue s n with
  | some v => .next (respond s statusOk v)
  | none => illegalCommand s

end Sys2Proof.Machine
end

