-- ==== Sys2Proof/Machine/RawBits.lean ====
section
/-! DEFINITION. The raw bit operations (spec file 41_raw_bit_ops.md): ADD, READ, PEEK, CLEAR, GETLEN, ISFIN. -/

namespace Sys2Proof.Machine

/-- ADD (R58): write the low `n` bits of `value` at the write cursor. -/
def execAdd (n : Byte) (value : Word) (s : State) : Host.Outcome State Fault Refusal :=
  command s do
    checkLive s
    checkWidth n
    addField s n.toNat value

/-- READ (R60): the `n` bits at the read cursor, which advances by `n`. -/
def execRead (n : Byte) (s : State) : Host.Outcome State Fault Refusal :=
  command s do
    checkLive s
    checkWidth n
    readField s n.toNat

/-- PEEK (R59): the `n` bits at the read cursor, which stays. -/
def execPeek (n : Byte) (s : State) : Host.Outcome State Fault Refusal :=
  command s do
    checkLive s
    checkWidth n
    peekField s n.toNat

/-- CLEAR (R61): both cursors to 0; nothing is wiped. -/
def execClear (s : State) : Host.Outcome State Fault Refusal :=
  command s do
    checkLive s
    return ({ s with rp := 0, wp := 0 }, 0)

/-- GETLEN (R62): the bytes that hold WP bits; LengthUndefined when WP is 0. -/
def execGetlen (s : State) : Host.Outcome State Fault Refusal :=
  command s do
    checkLive s
    if s.wp.toNat = 0 then throwExc .lengthUndefined
    return (s, BitVec.ofNat 32 (byteLength s.wp.toNat))

/-- ISFIN (R63): 1 when RP = WP, else 0. -/
def execIsfin (s : State) : Host.Outcome State Fault Refusal :=
  command s do
    checkLive s
    return (s, if finished s then 1 else 0)

end Sys2Proof.Machine
end

