-- ==== Sys2Proof/Machine/Typed.lean ====
section
/-! DEFINITION. The typed scalar codecs (spec file 42_typed_scalars.md): Boolean, Byte, Short, UShort. -/

namespace Sys2Proof.Machine

/-- ADDBOOL (R66): one bit, `imm[0]`. -/
def execAddbool (imm : Word) (s : State) : Host.Outcome State Fault Refusal :=
  command s do
    checkLive s
    addField s 1 imm

/-- READBOOL (R67). -/
def execReadbool (s : State) : Host.Outcome State Fault Refusal :=
  command s do
    checkLive s
    readField s 1

/-- PEEKBOOL (R68). -/
def execPeekbool (s : State) : Host.Outcome State Fault Refusal :=
  command s do
    checkLive s
    peekField s 1

/-- ADDBYTE (R69): eight bits, `imm[7:0]`. -/
def execAddbyte (imm : Word) (s : State) : Host.Outcome State Fault Refusal :=
  command s do
    checkLive s
    addField s 8 imm

/-- READBYTE (R70). -/
def execReadbyte (s : State) : Host.Outcome State Fault Refusal :=
  command s do
    checkLive s
    readField s 8

/-- PEEKBYTE (R71). -/
def execPeekbyte (s : State) : Host.Outcome State Fault Refusal :=
  command s do
    checkLive s
    peekField s 8

/-- ADDSHORT (R72): `imm[15:0]` as a signed value, through the zig-zag varint. -/
def execAddshort (imm : Word) (s : State) : Host.Outcome State Fault Refusal :=
  command s (addVarint s (zigZag (shortOperand imm)))

/-- READSHORT (R73): the signed integer, narrowed to 16 bits and sign-extended. -/
def execReadshort (s : State) : Host.Outcome State Fault Refusal :=
  command s (readVarint s fun c => shortResult (unZigZag c))

/-- PEEKSHORT (R74). -/
def execPeekshort (s : State) : Host.Outcome State Fault Refusal :=
  command s (peekVarint s fun c => shortResult (unZigZag c))

/-- ADDUSHORT (R75): `imm[15:0]` as an unsigned value, through the varint. -/
def execAddushort (imm : Word) (s : State) : Host.Outcome State Fault Refusal :=
  command s (addVarint s (ushortOperand imm))

/-- READUSHORT (R76): the unsigned integer, narrowed to 16 bits and zero-extended. -/
def execReadushort (s : State) : Host.Outcome State Fault Refusal :=
  command s (readVarint s ushortResult)

/-- PEEKUSHORT (R77). -/
def execPeekushort (s : State) : Host.Outcome State Fault Refusal :=
  command s (peekVarint s ushortResult)

end Sys2Proof.Machine
end

