-- ==== Sys2Proof/Machine/Dispatch.lean ====
section
/-! DEFINITION. One arm per command: each calls the command's meaning. -/

namespace Sys2Proof.Machine

def exec (i : Instr) (s : State) : Host.Outcome State Fault Refusal :=
  match i with
  | .new capBytes ident => Sys2Proof.Machine.execNew capBytes ident s
  | .release => Sys2Proof.Machine.execRelease s
  | .rdcsr n => Sys2Proof.Machine.execRdcsr n s
  | .add n value => Sys2Proof.Machine.execAdd n value s
  | .read n => Sys2Proof.Machine.execRead n s
  | .peek n => Sys2Proof.Machine.execPeek n s
  | .clear => Sys2Proof.Machine.execClear s
  | .getlen => Sys2Proof.Machine.execGetlen s
  | .isfin => Sys2Proof.Machine.execIsfin s
  | .addbool imm => Sys2Proof.Machine.execAddbool imm s
  | .readbool => Sys2Proof.Machine.execReadbool s
  | .peekbool => Sys2Proof.Machine.execPeekbool s
  | .addbyte imm => Sys2Proof.Machine.execAddbyte imm s
  | .readbyte => Sys2Proof.Machine.execReadbyte s
  | .peekbyte => Sys2Proof.Machine.execPeekbyte s
  | .addshort imm => Sys2Proof.Machine.execAddshort imm s
  | .readshort => Sys2Proof.Machine.execReadshort s
  | .peekshort => Sys2Proof.Machine.execPeekshort s
  | .addushort imm => Sys2Proof.Machine.execAddushort imm s
  | .readushort => Sys2Proof.Machine.execReadushort s
  | .peekushort => Sys2Proof.Machine.execPeekushort s
  | .adduint imm => Sys2Proof.Machine.execAdduint imm s
  | .readuint => Sys2Proof.Machine.execReaduint s
  | .peekuint => Sys2Proof.Machine.execPeekuint s
  | .addint imm => Sys2Proof.Machine.execAddint imm s
  | .readint => Sys2Proof.Machine.execReadint s
  | .peekint => Sys2Proof.Machine.execPeekint s
  | .toarray dstLen => Sys2Proof.Machine.execToarray dstLen s
  | .fromarray length => Sys2Proof.Machine.execFromarray length s

end Sys2Proof.Machine
end

