-- ==== Sys2Proof/Machine/Step.lean ====
section
/-! DEFINITION. One step of the system of R7: the host's next move. A command word is decoded and executed as one atomic step that ends in one
response; with no move pending the engine is idle and keeps its state (R105). -/

namespace Sys2Proof.Machine

/-- The engine takes a command word (R51): an illegal one is answered as R45 and R100 say, a legal one is executed. -/
def issue (w : CommandWord) (s : State) : Host.Outcome State Fault Refusal :=
  match decode w with
  | .ok i => exec i s
  | .error _ => illegalCommand s

/-- One step: the host's next move (log 1), or an idle step that changes nothing (log 2). -/
def step (s : State) : Host.Outcome State Fault Refusal :=
  match nextMove s with
  | none => .next s
  | some (.command w, t) => issue w t
  | some (.writeFrame a b, t) => hostWrite t a b
  | some (.reset, t) => .next (applyReset t)

/-- `s` with the host about to issue the command word with number `w` (R41: 64 bits, one length). -/
def State.withFetchWord (s : State) (nbits w : Nat) : State :=
  { s with host := .command (BitVec.ofNat 64 (w % 2 ^ nbits)) :: s.host }

end Sys2Proof.Machine
end

