-- ==== Sys2Proof/Safety.lean ====
section
/-! DEFINITION. The terms claims use: the invariant of R22, what stands in the word memory bit by bit (R28), what a varint is (R78, R83), and
when two states differ in stale storage only (R23). -/

namespace Sys2Proof.Machine

/-- R22 (a): `0 <= RP <= WP <= 32 * CAPW`. -/
abbrev State.CursorsInBounds (s : State) : Prop :=
  s.rp.toNat ≤ s.wp.toNat ∧ s.wp.toNat ≤ 32 * s.capw.toNat

/-- R22 (b): `CAPW + 1 <= WCAP`, the guard word lies in the word memory. -/
abbrev State.GuardWordFits (s : State) : Prop := s.capw.toNat + 1 ≤ s.cfg.wcap.toNat

/-- R22 (c): `LIVE = 0` implies `RP = WP = CAPW = 0`. -/
abbrev State.ReleasedIsEmpty (s : State) : Prop := s.live = false → s.rp = 0 ∧ s.wp = 0 ∧ s.capw = 0

/-- R22 (d), its part about one state: `FATAL = 1` implies `CAUSE >= 0x80`. -/
abbrev State.FatalHasCause (s : State) : Prop := s.fatal = true → 0x80 ≤ s.cause.toNat

/-- Both memories are in canonical form (log 6) and list no address that does not exist (R27). -/
abbrev State.MemoriesWf (s : State) : Prop :=
  Memory.wf s.words ∧ Memory.below s.words s.cfg.wcap.toNat ∧ Memory.wf s.frame ∧ Memory.below s.frame s.cfg.fcap.toNat

/-- R23: every word that holds a bit below WP has been written, so that no command reads a word nothing has written. -/
abbrev State.WrittenBelowWp (s : State) : Prop :=
  ∀ i < s.capw.toNat, 32 * i < s.wp.toNat → (Memory.read s.words i).isSome = true

/-- The invariant of the engine: the parameters meet R5, and the state meets R22 and the model's own clauses. -/
abbrev State.Inv (s : State) : Prop :=
  s.cfg.wf ∧ s.CursorsInBounds ∧ s.GuardWordFits ∧ s.ReleasedIsEmpty ∧ s.FatalHasCause ∧ s.MemoriesWf ∧ s.WrittenBelowWp

/-- The engine runs commands of a live buffer: LIVE is set and FATAL is not. -/
abbrev State.Ready (s : State) : Prop := s.live = true ∧ s.fatal = false

/-- The engine can acquire a buffer: neither LIVE nor FATAL is set. -/
abbrev State.Idle (s : State) : Prop := s.live = false ∧ s.fatal = false

/-- The response channel carries this response (R43). -/
abbrev State.Answers (s : State) (status : Byte) (result : Word) : Prop :=
  s.rsp = some (responseWord status result)

/-- The state after an exception with this code and class (R96): `s` but for CAUSE, FATAL and the response. -/
abbrev State.afterException (s : State) (code : Byte) (isFatal : Bool) : State :=
  { s with cause := code, fatal := s.fatal || isFatal, rsp := some (responseWord code 0) }

/-- `r` is the field of `n` bits at bit position `p`, zero-extended (R28): bit `k` of it is bit `p + k` of the buffer, and zero from `n` up. -/
abbrev State.HoldsField (s : State) (p n : Nat) (r : Word) : Prop :=
  ∀ k < 32, r.getLsbD k = (decide (k < n) && s.bit (p + k))

/-- The groups `g` stand at bit position `p`, each in 8 bits, the first one lowest (R28, R80). -/
abbrev State.GroupsAt (s : State) (p : Nat) (g : List Byte) : Prop :=
  ∀ j < g.length, ∀ k < 8, s.bit (p + 8 * j + k) = (g.getD j 0).getLsbD k

/-- Byte `j` of the buffer, bits `8 * j` to `8 * j + 7` (R30), is `b`. -/
abbrev State.HoldsByte (s : State) (j : Nat) (b : Byte) : Prop := ∀ k < 8, s.bit (8 * j + k) = b.getLsbD k

/-- From `s` to `t` the low `n` bits of `v` were appended at the write cursor of `s` (R56, R64): the cursor moves by `n`; the bits below it
stay, the field follows, and above it the rest of the two words is zero; no other word changes. -/
def State.Appends (s t : State) (n : Nat) (v : Word) : Prop :=
  t.wp.toNat = s.wp.toNat + n
    ∧ (∀ p < s.wp.toNat, t.bit p = s.bit p)
    ∧ (∀ k < n, t.bit (s.wp.toNat + k) = v.getLsbD k)
    ∧ (∀ p, s.wp.toNat + n ≤ p → p < 32 * (s.wp.toNat / 32 + 2) → t.bit p = false)
    ∧ (∀ i, i ≠ s.wp.toNat / 32 → i ≠ s.wp.toNat / 32 + 1 → t.word i = s.word i)

/-- A complete varint (R78, R83 (c)): at least one group, the continuation bit set in every group but the last and clear in the last. -/
def isVarint : List Byte → Bool
  | [] => false
  | [b] => !b.getLsbD 7
  | b :: g => b.getLsbD 7 && isVarint g

/-- Every group has its continuation bit set: a varint cut short or too long. -/
def allContinue (g : List Byte) : Bool := g.all fun b => b.getLsbD 7

/-- The number a varint's groups stand for: 7 value bits a group, least significant group first. -/
def groupsValue : List Byte → Nat
  | [] => 0
  | b :: g => b.toNat % 128 + 128 * groupsValue g

/-- The group count of R83 (b): `ceil(bitlength(v) / 7)`, minimum 1, by its thresholds. -/
def groupCount (v : Nat) : Nat :=
  if v < 2 ^ 7 then 1 else if v < 2 ^ 14 then 2 else if v < 2 ^ 21 then 3 else if v < 2 ^ 28 then 4 else 5

/-- From `s` to `t` the value `v` was appended as a canonical varint at the write cursor of `s` (R78, R80): its groups stand there, the bits
below them stay, and no word but those the groups' writes touch changes. -/
def State.AppendsVarint (s t : State) (v : Nat) : Prop :=
  ∃ g, isVarint g = true ∧ groupsValue g = v ∧ g.length = groupCount v
    ∧ t.wp.toNat = s.wp.toNat + 8 * g.length
    ∧ t.GroupsAt s.wp.toNat g
    ∧ (∀ p < s.wp.toNat, t.bit p = s.bit p)
    ∧ (∀ i, (i < s.wp.toNat / 32 ∨ (s.wp.toNat + 8 * (g.length - 1)) / 32 + 1 < i) → t.word i = s.word i)

/-- The zig-zag code of a signed number (R84): `2v` for `v >= 0`, `-2v - 1` for `v < 0`. -/
def zigZagCode (v : Int) : Int := if 0 ≤ v then 2 * v else -2 * v - 1

/-- The signed number of a zig-zag code (R85): half an even code, `-(c + 1) / 2` for an odd one. -/
def zigZagValue (c : Nat) : Int := if c % 2 = 0 then (c / 2 : Nat) else -((c + 1) / 2 : Nat)

/-- A complete varint of at most five groups with the groups `g` stands at the read cursor, below the write cursor (R79). -/
abbrev State.VarintAtRp (s : State) (g : List Byte) : Prop :=
  isVarint g = true ∧ g.length ≤ 5 ∧ s.rp.toNat + 8 * g.length ≤ s.wp.toNat ∧ s.GroupsAt s.rp.toNat g

/-- The two states differ at most in stale storage (R23): in bits of the word memory at positions not below WP. -/
abbrev State.AgreeBelowWp (s t : State) : Prop :=
  t = { s with words := t.words } ∧ ∀ p < s.wp.toNat, s.bit p = t.bit p

/-- The peek command and the read command of one kind (R65): raw with one width, Boolean, Byte, Short, UShort, varint, zig-zag. -/
def peekReadPairs (n : Byte) : List (Instr × Instr) :=
  [(.peek n, .read n), (.peekbool, .readbool), (.peekbyte, .readbyte), (.peekshort, .readshort), (.peekushort, .readushort),
   (.peekuint, .readuint), (.peekint, .readint)]

end Sys2Proof.Machine

namespace Sys2Proof

/-- NEW and FROMARRAY: the commands that acquire a buffer (R55). -/
def Instr.acquires : Instr → Bool
  | .new _ _ | .fromarray _ => true
  | _ => false

/-- RDCSR: the command with no lifecycle check (R54). -/
def Instr.isRdcsr : Instr → Bool
  | .rdcsr _ => true
  | _ => false

/-- The PEEK family, GETLEN, ISFIN and RDCSR: the commands whose rules write no state (R33, R54, R62, R63). -/
def Instr.readsOnly : Instr → Bool
  | .rdcsr _ | .peek _ | .getlen | .isfin | .peekbool | .peekbyte | .peekshort | .peekushort | .peekuint | .peekint => true
  | _ => false

/-- The commands whose rules write the word memory (R20). -/
def Instr.writesWords : Instr → Bool
  | .new _ _ | .add _ _ | .addbool _ | .addbyte _ | .addshort _ | .addushort _ | .adduint _ | .addint _ | .toarray _
  | .fromarray _ => true
  | _ => false

/-- TOARRAY, the one command whose rule writes the frame memory (R17). -/
def Instr.writesFrame : Instr → Bool
  | .toarray _ => true
  | _ => false

end Sys2Proof
end

