-- ==== Sys2Proof/Certificates/Slice0/Obligations.lean ====
section
/-! DEFINITION. The statements for the provers: what the commands of the engine do, what an exception leaves, what every step keeps, what no
command can observe. Each docstring names the rule of spec/ it comes from. -/

open Sys2Proof Sys2Proof.Machine

/-! ## Encoding -/

/-- R48, R44: words written out from the spec's encoding of them decode to the commands they stand for, and illegal ones are refused by
name. -/
def Obligations.SpecWordsDecode : Prop :=
  decode 0x1500000000000000 = .ok .isfin
    ∧ decode 0x1110000000000000 = .ok (.read 16)
    ∧ decode 0x10140000000ABCDE = .ok (.add 20 0xABCDE)
    ∧ decode 0x40000000FFFFFFFB = .ok (.addint 0xFFFFFFFB)
    ∧ decode 0x0100123400000010 = .ok (.new 16 0x1234)
    ∧ decode 0x0304000000000000 = .ok (.rdcsr 4)
    ∧ decode 0x280000000000FFFF = .ok (.addshort 0xFFFF)
    ∧ decode 0x3100000000000000 = .ok .readuint
    ∧ decode 0x5100000000000005 = .ok (.fromarray 5)
    ∧ decode 0x2300000000000000 = .error (.unknownOpcode 0x23)
    ∧ decode 0x1300000000000001 = .error (.reservedField 0x13)
    ∧ decode 0x0307000000000000 = .error (.noSuchCsr 7)

/-- R41, R42, R44: decoding the word of a well-formed command gives that command back, with every operand. -/
def Obligations.DecodeEncodeRoundTrip : Prop :=
  ∀ i : Instr, i.WellFormed → decode (encode i) = .ok i

/-- R41, R44: a word that decodes is the word of the command it decodes to, and that command is well-formed: every bit of a legal word has
exactly one reading. -/
def Obligations.EncodeDecodeRoundTrip : Prop :=
  ∀ (w : CommandWord) (i : Instr), decode w = .ok i → encode i = w ∧ i.WellFormed

/-- R44, R45, R46: the decoder rejects exactly the words that are illegal by the opcode map's match and mask and the RDCSR condition. -/
def Obligations.DecoderRejectsExactlyIllegalWords : Prop :=
  ∀ w : CommandWord, (∃ i, decode w = .ok i) ↔ illegalWord w = false

/-! ## Steps -/

/-- R51, R7: when the host's next move is a command word that decodes to `i`, the step is `exec i`, and the move is taken. -/
def Obligations.StepRunsDecodedCommand : Prop :=
  ∀ (s : State) (w : CommandWord) (rest : List HostMove) (i : Instr),
    s.host = .command w :: rest → decode w = .ok i → step s = exec i { s with host := rest }

/-- R41, R51: a well-formed command placed as the next command is the one the next step runs. -/
def Obligations.PlacedCommandRuns : Prop :=
  ∀ (s : State) (i : Instr), i.WellFormed → step (s.withFetchWord 64 (encode i).toNat) = exec i s

/-- R105 with the model's host moves (log 1, log 2), R17, R38: an engine with no pending move keeps its whole state; a host write changes the
one byte it names, and faults at a byte that does not exist. -/
def Obligations.IdleStepAndHostWrite : Prop :=
  (∀ s : State, s.host = [] → step s = .next s)
    ∧ (∀ (s : State) (a : Nat) (b : Byte) (rest : List HostMove), s.host = .writeFrame a b :: rest → a < s.cfg.fcap.toNat →
        ∃ t, step s = .next t ∧ t = { s with frame := t.frame, host := rest } ∧ t.frameByte a = b
          ∧ ∀ c, c ≠ a → t.frameByte c = s.frameByte c)
    ∧ (∀ (s : State) (a : Nat) (b : Byte) (rest : List HostMove), s.host = .writeFrame a b :: rest → s.cfg.fcap.toNat ≤ a →
        step s = .fault (.frameOutside a))

/-- R107: reset gives every CSR its reset value, leaves the parameters, and writes neither memory. -/
def Obligations.ResetClearsTheRegisters : Prop :=
  ∀ (s : State) (rest : List HostMove), s.host = .reset :: rest →
    ∃ t, step s = .next t
      ∧ t.rp = 0 ∧ t.wp = 0 ∧ t.capw = 0 ∧ t.live = false ∧ t.fatal = false ∧ t.cause = 0
      ∧ t.cfg = s.cfg ∧ t.words = s.words ∧ t.frame = s.frame

/-! ## Exceptions -/

/-- R95, R97: the codes of the ten exceptions, and bit 7 of a code is set exactly for the fatal class. -/
def Obligations.ExceptionCodesAndClasses : Prop :=
  Exc.varintTooLong.code = 0x01 ∧ Exc.badFrame.code = 0x02 ∧ Exc.readOverrun.code = 0x03 ∧ Exc.lengthUndefined.code = 0x04
    ∧ Exc.notLive.code = 0x81 ∧ Exc.badWidth.code = 0x82 ∧ Exc.alreadyLive.code = 0x83 ∧ Exc.capacityExceeded.code = 0x84
    ∧ Exc.illegalCommand.code = 0x85 ∧ Exc.resourceLimit.code = 0x86
    ∧ ∀ e : Exc, e.isFatal = e.code.getLsbD 7

/-- R96, R18, R100: a command that answers a next state ends in one of three ways. It is OK and leaves CAUSE and FATAL; it is Dead and leaves
everything but the response; or it raises an exception, and then nothing changes but CAUSE, FATAL and the response, which carries the code
and result 0. -/
def Obligations.ExceptionsArePrecise : Prop :=
  ∀ (i : Instr) (s t : State), exec i s = .next t →
    (∃ r, t.Answers 0x00 r ∧ t.cause = s.cause ∧ t.fatal = s.fatal)
      ∨ (s.fatal = true ∧ t = { s with rsp := some (responseWord 0xFF 0) })
      ∨ (s.fatal = false ∧ ∃ e : Exc, t = { s with cause := e.code, fatal := e.isFatal, rsp := some (responseWord e.code 0) })

/-- R45: an illegal word raises IllegalCommand whatever LIVE is, and has no other effect. -/
def Obligations.IllegalWordsRaiseIllegalCommand : Prop :=
  ∀ (s : State) (w : CommandWord) (rest : List HostMove),
    s.host = .command w :: rest → s.fatal = false → illegalWord w = true →
      step s = .next ({ s with host := rest }.afterException 0x85 true)

/-- R100: while FATAL is set, a legal RDCSR is performed and every other word, the illegal ones too, is answered Dead and changes nothing;
no move of the host but reset ends that, and no CSR and no word of the word memory changes until then. -/
def Obligations.DeadUntilReset : Prop :=
  (∀ (s : State) (w : CommandWord) (rest : List HostMove), s.host = .command w :: rest → s.fatal = true →
      (∀ n, decode w = .ok (.rdcsr n) →
        ∃ v, csrValue s n = some v ∧ step s = .next { s with host := rest, rsp := some (responseWord 0x00 v) })
      ∧ ((∀ n, decode w ≠ .ok (.rdcsr n)) → step s = .next { s with host := rest, rsp := some (responseWord 0xFF 0) }))
    ∧ (∀ s t : State, s.fatal = true → (∀ rest, s.host ≠ .reset :: rest) → step s = .next t →
        t = { s with frame := t.frame, rsp := t.rsp, host := t.host })
    ∧ (∀ (s t : State) (rest : List HostMove), s.fatal = true → s.host = .reset :: rest → step s = .next t → t.fatal = false)

/-- R95, R98, R99: every command but NEW, FROMARRAY and RDCSR finds no live buffer and raises NotLive, whatever its operands. -/
def Obligations.NotLiveTraps : Prop :=
  ∀ (i : Instr) (s : State), s.Idle → i.acquires = false → i.isRdcsr = false →
    exec i s = .next (s.afterException 0x81 true)

/-- R95, R98, R99: NEW and FROMARRAY on a live buffer raise AlreadyLive, whatever their operands. -/
def Obligations.AlreadyLiveTraps : Prop :=
  ∀ (i : Instr) (s : State), s.Ready → i.acquires = true → exec i s = .next (s.afterException 0x83 true)

/-- R95, R98, R99: ADD, READ and PEEK of a width outside 1 to 32 raise BadWidth, whatever room or data there is. -/
def Obligations.BadWidthTraps : Prop :=
  ∀ (s : State) (n : Byte) (v : Word), s.Ready → n.toNat = 0 ∨ 32 < n.toNat →
    exec (.add n v) s = .next (s.afterException 0x82 true)
      ∧ exec (.read n) s = .next (s.afterException 0x82 true)
      ∧ exec (.peek n) s = .next (s.afterException 0x82 true)

/-- R95, R99: NEW of more words than the word memory has beside the guard word, and TOARRAY and FROMARRAY of more bytes than the frame memory
has, raise ResourceLimit. -/
def Obligations.ResourceLimitTraps : Prop :=
  (∀ (s : State) (c : Word) (ident : Half), s.Idle → s.cfg.wcap.toNat < (c.toNat + 3) / 4 + 1 →
      exec (.new c ident) s = .next (s.afterException 0x86 true))
    ∧ (∀ (s : State) (d : Word), s.Ready → s.cfg.fcap.toNat < d.toNat →
      exec (.toarray d) s = .next (s.afterException 0x86 true))
    ∧ (∀ (s : State) (l : Word), s.Idle → s.cfg.fcap.toNat < l.toNat →
      exec (.fromarray l) s = .next (s.afterException 0x86 true))

/-- R95, R98, R80, R83 (b): a write whose bits do not fit below `32 * CAPW` raises CapacityExceeded and writes nothing: the raw and the
fixed-width adds, the varint adds by the count of all their groups, TOARRAY for its sentinel, NEW of no bytes. -/
def Obligations.CapacityExceededTraps : Prop :=
  (∀ (s : State) (n : Byte) (v : Word), s.Ready → 1 ≤ n.toNat → n.toNat ≤ 32 → 32 * s.capw.toNat < s.wp.toNat + n.toNat →
      exec (.add n v) s = .next (s.afterException 0x84 true))
    ∧ (∀ (s : State) (v : Word), s.Ready → 32 * s.capw.toNat < s.wp.toNat + 1 →
      exec (.addbool v) s = .next (s.afterException 0x84 true))
    ∧ (∀ (s : State) (v : Word), s.Ready → 32 * s.capw.toNat < s.wp.toNat + 8 →
      exec (.addbyte v) s = .next (s.afterException 0x84 true))
    ∧ (∀ (s : State) (v : Word), s.Ready → 32 * s.capw.toNat < s.wp.toNat + 8 * groupCount v.toNat →
      exec (.adduint v) s = .next (s.afterException 0x84 true))
    ∧ (∀ (s : State) (v : Word), s.Ready → 32 * s.capw.toNat < s.wp.toNat + 8 * groupCount (v.toNat % 2 ^ 16) →
      exec (.addushort v) s = .next (s.afterException 0x84 true))
    ∧ (∀ (s : State) (v : Word), s.Ready → 32 * s.capw.toNat < s.wp.toNat + 8 * groupCount (zigZagCode v.toInt).toNat →
      exec (.addint v) s = .next (s.afterException 0x84 true))
    ∧ (∀ (s : State) (v : Word), s.Ready →
      32 * s.capw.toNat < s.wp.toNat + 8 * groupCount (zigZagCode (v.setWidth 16 : Half).toInt).toNat →
      exec (.addshort v) s = .next (s.afterException 0x84 true))
    ∧ (∀ (s : State) (d : Word), s.Ready → d.toNat ≤ s.cfg.fcap.toNat → 32 * s.capw.toNat < s.wp.toNat + 1 →
      exec (.toarray d) s = .next (s.afterException 0x84 true))
    ∧ (∀ (s : State) (ident : Half), s.Idle → 1 ≤ s.cfg.wcap.toNat →
      exec (.new 0 ident) s = .next (s.afterException 0x84 true))

/-- R95, R98: a fixed-width read or peek that would pass WP raises ReadOverrun, which is not fatal and moves nothing. -/
def Obligations.ReadOverrunTraps : Prop :=
  (∀ (s : State) (n : Byte), s.Ready → 1 ≤ n.toNat → n.toNat ≤ 32 → s.wp.toNat < s.rp.toNat + n.toNat →
      exec (.read n) s = .next (s.afterException 0x03 false) ∧ exec (.peek n) s = .next (s.afterException 0x03 false))
    ∧ (∀ s : State, s.Ready → s.wp.toNat < s.rp.toNat + 1 →
      exec .readbool s = .next (s.afterException 0x03 false) ∧ exec .peekbool s = .next (s.afterException 0x03 false))
    ∧ (∀ s : State, s.Ready → s.wp.toNat < s.rp.toNat + 8 →
      exec .readbyte s = .next (s.afterException 0x03 false) ∧ exec .peekbyte s = .next (s.afterException 0x03 false))

/-- R79 (4), R98: a varint whose groups so far all continue and whose next group, the fifth at the latest, would pass WP raises ReadOverrun
in each of the eight varint-reading commands; RP does not move. -/
def Obligations.CutVarintTraps : Prop :=
  ∀ (s : State) (g : List Byte) (i : Instr), s.Inv → s.Ready → allContinue g = true → g.length ≤ 4 →
    s.rp.toNat + 8 * g.length ≤ s.wp.toNat → s.wp.toNat < s.rp.toNat + 8 * (g.length + 1) → s.GroupsAt s.rp.toNat g →
    i ∈ [Instr.readuint, .peekuint, .readint, .peekint, .readshort, .peekshort, .readushort, .peekushort] →
      exec i s = .next (s.afterException 0x03 false)

/-- R79 (1), R95: five groups that all continue raise VarintTooLong in each of the eight varint-reading commands, whatever follows them; RP
does not move. -/
def Obligations.EndlessVarintTraps : Prop :=
  ∀ (s : State) (g : List Byte) (i : Instr), s.Inv → s.Ready → allContinue g = true → g.length = 5 →
    s.rp.toNat + 40 ≤ s.wp.toNat → s.GroupsAt s.rp.toNat g →
    i ∈ [Instr.readuint, .peekuint, .readint, .peekint, .readshort, .peekshort, .readushort, .peekushort] →
      exec i s = .next (s.afterException 0x01 false)

/-- R93, R95: FROMARRAY of no bytes, or of bytes whose last is zero, raises BadFrame: nothing is acquired, and the engine stays usable. -/
def Obligations.BadFrameTraps : Prop :=
  ∀ (s : State) (l : Word), s.Idle → l.toNat ≤ s.cfg.fcap.toNat → (l.toNat = 0 ∨ s.frameByte (l.toNat - 1) = 0) →
    exec (.fromarray l) s = .next (s.afterException 0x02 false)

/-! ## Lifecycle and system commands -/

/-- R52: NEW acquires `ceil(capBytes / 4)` data words, with both cursors at the start, and writes the identifier as the raw 16-bit first
field; the rest of the word memory stays. -/
def Obligations.NewAcquiresBuffer : Prop :=
  ∀ (s : State) (c : Word) (ident : Half), s.Idle → 1 ≤ c.toNat → (c.toNat + 3) / 4 + 1 ≤ s.cfg.wcap.toNat →
    ∃ t, exec (.new c ident) s = .next t ∧ t.Answers 0x00 0
      ∧ t = { s with live := true, capw := t.capw, rp := 0, wp := 16, words := t.words, rsp := t.rsp }
      ∧ t.capw.toNat = (c.toNat + 3) / 4
      ∧ t.word 0 = ident.setWidth 32 ∧ t.word 1 = 0 ∧ ∀ i, 2 ≤ i → t.word i = s.word i

/-- R53, R61: RELEASE frees the buffer and zeroes the cursors and CAPW; CLEAR zeroes the cursors only; neither touches a memory. -/
def Obligations.ReleaseAndClear : Prop :=
  ∀ s : State, s.Ready →
    exec .release s = .next { s with live := false, rp := 0, wp := 0, capw := 0, rsp := some (responseWord 0x00 0) }
      ∧ exec .clear s = .next { s with rp := 0, wp := 0, rsp := some (responseWord 0x00 0) }

/-- R12, R54, R100: RDCSR answers each of the seven registers, in every state, the dead one too, and changes nothing else; a CSR number above 6
is an illegal command, or Dead. -/
def Obligations.RdcsrReadsTheRegisters : Prop :=
  (∀ s : State,
    exec (.rdcsr 0) s = .next { s with rsp := some (responseWord 0x00 s.rp) }
      ∧ exec (.rdcsr 1) s = .next { s with rsp := some (responseWord 0x00 s.wp) }
      ∧ exec (.rdcsr 2) s = .next { s with rsp := some (responseWord 0x00 s.capw) }
      ∧ (∃ v : Word, v.toNat = s.live.toNat + 2 * s.fatal.toNat
        ∧ exec (.rdcsr 3) s = .next { s with rsp := some (responseWord 0x00 v) })
      ∧ (∃ v : Word, v.toNat = s.cause.toNat ∧ exec (.rdcsr 4) s = .next { s with rsp := some (responseWord 0x00 v) })
      ∧ exec (.rdcsr 5) s = .next { s with rsp := some (responseWord 0x00 s.cfg.wcap) }
      ∧ exec (.rdcsr 6) s = .next { s with rsp := some (responseWord 0x00 s.cfg.fcap) })
    ∧ (∀ (s : State) (n : Byte), 6 < n.toNat →
      exec (.rdcsr n) s =
        .next (if s.fatal then { s with rsp := some (responseWord 0xFF 0) } else s.afterException 0x85 true))

/-- R55: a command that succeeds keeps the lifecycle's pattern: NEW and FROMARRAY only acquire, RELEASE only releases, RDCSR stands anywhere,
and every other command runs on a live buffer and leaves it live. -/
def Obligations.LifecycleLaw : Prop :=
  ∀ (i : Instr) (s t : State) (r : Word), exec i s = .next t → t.Answers 0x00 r →
    if i.acquires then s.live = false ∧ t.live = true
    else if i = .release then s.live = true ∧ t.live = false
    else if i.isRdcsr then t.live = s.live
    else s.live = true ∧ t.live = true

/-! ## Raw bit operations and fixed-width scalars -/

/-- R56, R58, R64, R66, R69: ADD appends the low `n` bits of its value, ADDBOOL the low bit, ADDBYTE the low eight; nothing but WP and the two
words of the write changes. -/
def Obligations.FixedWidthAddsAppend : Prop :=
  (∀ (s : State) (n : Byte) (v : Word), s.Inv → s.Ready → 1 ≤ n.toNat → n.toNat ≤ 32 →
      s.wp.toNat + n.toNat ≤ 32 * s.capw.toNat →
      ∃ t, exec (.add n v) s = .next t ∧ t.Answers 0x00 0 ∧ t = { s with wp := t.wp, words := t.words, rsp := t.rsp }
        ∧ s.Appends t n.toNat v)
    ∧ (∀ (s : State) (v : Word), s.Inv → s.Ready → s.wp.toNat + 1 ≤ 32 * s.capw.toNat →
      ∃ t, exec (.addbool v) s = .next t ∧ t.Answers 0x00 0 ∧ t = { s with wp := t.wp, words := t.words, rsp := t.rsp }
        ∧ s.Appends t 1 v)
    ∧ (∀ (s : State) (v : Word), s.Inv → s.Ready → s.wp.toNat + 8 ≤ 32 * s.capw.toNat →
      ∃ t, exec (.addbyte v) s = .next t ∧ t.Answers 0x00 0 ∧ t = { s with wp := t.wp, words := t.words, rsp := t.rsp }
        ∧ s.Appends t 8 v)

/-- R57, R59, R60: PEEK answers the field of `n` bits at the read cursor and changes nothing; READ answers the same and moves RP past it. -/
def Obligations.RawReadsReturnTheField : Prop :=
  ∀ (s : State) (n : Byte), s.Inv → s.Ready → 1 ≤ n.toNat → n.toNat ≤ 32 → s.rp.toNat + n.toNat ≤ s.wp.toNat →
    ∃ r, s.HoldsField s.rp.toNat n.toNat r
      ∧ exec (.peek n) s = .next { s with rsp := some (responseWord 0x00 r) }
      ∧ ∃ t, exec (.read n) s = .next t ∧ t = { s with rp := t.rp, rsp := some (responseWord 0x00 r) }
        ∧ t.rp.toNat = s.rp.toNat + n.toNat

/-- R67, R68, R70, R71: the Boolean and Byte reads and peeks are those of fields of 1 and of 8 bits. -/
def Obligations.BoolAndByteReadsReturnTheField : Prop :=
  (∀ s : State, s.Inv → s.Ready → s.rp.toNat + 1 ≤ s.wp.toNat →
    ∃ r, s.HoldsField s.rp.toNat 1 r
      ∧ exec .peekbool s = .next { s with rsp := some (responseWord 0x00 r) }
      ∧ ∃ t, exec .readbool s = .next t ∧ t = { s with rp := t.rp, rsp := some (responseWord 0x00 r) }
        ∧ t.rp.toNat = s.rp.toNat + 1)
    ∧ (∀ s : State, s.Inv → s.Ready → s.rp.toNat + 8 ≤ s.wp.toNat →
    ∃ r, s.HoldsField s.rp.toNat 8 r
      ∧ exec .peekbyte s = .next { s with rsp := some (responseWord 0x00 r) }
      ∧ ∃ t, exec .readbyte s = .next t ∧ t = { s with rp := t.rp, rsp := some (responseWord 0x00 r) }
        ∧ t.rp.toNat = s.rp.toNat + 8)

/-- R62, R95: GETLEN answers the number of whole bytes that hold WP bits, `ceil(WP / 8)`, and raises LengthUndefined when WP is 0. -/
def Obligations.GetlenCountsBytes : Prop :=
  (∀ s : State, s.Ready → 1 ≤ s.wp.toNat →
    ∃ r : Word, r.toNat = (s.wp.toNat + 7) / 8 ∧ exec .getlen s = .next { s with rsp := some (responseWord 0x00 r) })
    ∧ (∀ s : State, s.Ready → s.wp.toNat = 0 → exec .getlen s = .next (s.afterException 0x04 false))

/-- R63: ISFIN answers 1 exactly when the read cursor has reached the write cursor, and changes nothing. -/
def Obligations.IsfinComparesTheCursors : Prop :=
  ∀ s : State, s.Ready →
    (s.rp.toNat = s.wp.toNat → exec .isfin s = .next { s with rsp := some (responseWord 0x00 1) })
      ∧ (s.rp.toNat ≠ s.wp.toNat → exec .isfin s = .next { s with rsp := some (responseWord 0x00 0) })

/-- R64 (a): at `RP = WP`, an ADD that fits and then a READ of the same width answers the low `n` bits of the value, and the buffer is
finished again. -/
def Obligations.AddThenReadRoundTrip : Prop :=
  ∀ (s : State) (n : Byte) (v : Word), s.Inv → s.Ready → 1 ≤ n.toNat → n.toNat ≤ 32 → s.rp = s.wp →
    s.wp.toNat + n.toNat ≤ 32 * s.capw.toNat →
    ∃ t u r, exec (.add n v) s = .next t ∧ exec (.read n) t = .next u ∧ u.Answers 0x00 r
      ∧ r.toNat = v.toNat % 2 ^ n.toNat ∧ u.rp = u.wp

/-- R64 (d): at `RP = WP`, a field of `a + b` bits written by one ADD reads back as two fields, its low `a` bits and then its next `b` bits. -/
def Obligations.OneFieldReadsBackAsTwo : Prop :=
  ∀ (s : State) (n a b : Byte) (v : Word), s.Inv → s.Ready → 1 ≤ a.toNat → 1 ≤ b.toNat → n.toNat = a.toNat + b.toNat → n.toNat ≤ 32 →
    s.rp = s.wp → s.wp.toNat + n.toNat ≤ 32 * s.capw.toNat →
    ∃ t u w x y, exec (.add n v) s = .next t ∧ exec (.read a) t = .next u ∧ u.Answers 0x00 x
      ∧ exec (.read b) u = .next w ∧ w.Answers 0x00 y ∧ w.rp = w.wp
      ∧ x.toNat = v.toNat % 2 ^ a.toNat ∧ y.toNat = v.toNat / 2 ^ a.toNat % 2 ^ b.toNat

/-- R33, R59, R54: a PEEK-family command, GETLEN, ISFIN or RDCSR that succeeds changes nothing but the response, and the same command again
answers the same. -/
def Obligations.ReadOnlyCommandsRepeat : Prop :=
  ∀ (i : Instr) (s t : State) (r : Word), i.readsOnly = true → exec i s = .next t → t.Answers 0x00 r →
    t = { s with rsp := t.rsp } ∧ exec i t = .next t

/-- R65: of each kind, the read answers what the peek answers, and changes nothing else but RP. By how much RP moves is said of each kind by
RawReadsReturnTheField, BoolAndByteReadsReturnTheField, UnsignedReadsDecodeTheVarint and SignedReadsDecodeTheVarint. -/
def Obligations.ReadAnswersWhatPeekAnswers : Prop :=
  ∀ (n : Byte) (pk rd : Instr) (s t : State) (r : Word), (pk, rd) ∈ peekReadPairs n → exec pk s = .next t → t.Answers 0x00 r →
    ∃ u, exec rd s = .next u ∧ u = { s with rp := u.rp, rsp := t.rsp }

/-! ## Varint and zig-zag -/

/-- R84, R85: the zig-zag map by its formula on 32 bits, its value on every signed number, and the two maps are inverse to each other. -/
def Obligations.ZigZagIsABijection : Prop :=
  (∀ v : Word, zigZag v = (v <<< 1) ^^^ (v.sshiftRight 31))
    ∧ (∀ v : Word, ((zigZag v).toNat : Int) = zigZagCode v.toInt)
    ∧ (∀ c : Word, unZigZag c = (c >>> 1) ^^^ (if c.getLsbD 0 then 0xFFFFFFFF else 0))
    ∧ (∀ c : Word, (unZigZag c).toInt = zigZagValue c.toNat)
    ∧ (∀ v : Word, unZigZag (zigZag v) = v) ∧ (∀ c : Word, zigZag (unZigZag c) = c)

/-- R78, R83: `VarintGroups` gives a complete varint that stands for the value, with the group count of R83 (b); zero is the single group 0;
the encoding is canonical, and a fifth group is at most 0x0F. -/
def Obligations.VarintGroupsEncodeTheValue : Prop :=
  varintGroups 0 = [0]
    ∧ ∀ v : Word, isVarint (varintGroups v) = true ∧ groupsValue (varintGroups v) = v.toNat
      ∧ (varintGroups v).length = groupCount v.toNat
      ∧ ((varintGroups v).length ≠ 1 → (varintGroups v).getLast? ≠ some 0)
      ∧ ∀ b, (varintGroups v)[4]? = some b → b.toNat ≤ 0x0F

/-- R89 (b): the number of groups of a signed value, by its thresholds; one group exactly from -64 to 63. -/
def Obligations.SignedVarintCost : Prop :=
  ∀ v : Word, (varintGroups (zigZag v)).length =
    if -2 ^ 6 ≤ v.toInt ∧ v.toInt < 2 ^ 6 then 1
    else if -2 ^ 13 ≤ v.toInt ∧ v.toInt < 2 ^ 13 then 2
    else if -2 ^ 20 ≤ v.toInt ∧ v.toInt < 2 ^ 20 then 3
    else if -2 ^ 27 ≤ v.toInt ∧ v.toInt < 2 ^ 27 then 4
    else 5

/-- R75, R80: ADDUINT appends its operand as a canonical varint, ADDUSHORT the low 16 bits of its operand; nothing but WP and the words of the
groups changes. -/
def Obligations.UnsignedAddsAppendAVarint : Prop :=
  (∀ (s : State) (v : Word), s.Inv → s.Ready → s.wp.toNat + 8 * groupCount v.toNat ≤ 32 * s.capw.toNat →
      ∃ t, exec (.adduint v) s = .next t ∧ t.Answers 0x00 0 ∧ t = { s with wp := t.wp, words := t.words, rsp := t.rsp }
        ∧ s.AppendsVarint t v.toNat)
    ∧ (∀ (s : State) (v : Word), s.Inv → s.Ready → s.wp.toNat + 8 * groupCount (v.toNat % 2 ^ 16) ≤ 32 * s.capw.toNat →
      ∃ t, exec (.addushort v) s = .next t ∧ t.Answers 0x00 0 ∧ t = { s with wp := t.wp, words := t.words, rsp := t.rsp }
        ∧ s.AppendsVarint t (v.toNat % 2 ^ 16))

/-- R72, R86: ADDINT appends the zig-zag code of its signed operand as a canonical varint, ADDSHORT that of its low 16 bits taken as signed;
nothing but WP and the words of the groups changes. -/
def Obligations.SignedAddsAppendAVarint : Prop :=
  (∀ (s : State) (v : Word), s.Inv → s.Ready → s.wp.toNat + 8 * groupCount (zigZagCode v.toInt).toNat ≤ 32 * s.capw.toNat →
      ∃ t, exec (.addint v) s = .next t ∧ t.Answers 0x00 0 ∧ t = { s with wp := t.wp, words := t.words, rsp := t.rsp }
        ∧ s.AppendsVarint t (zigZagCode v.toInt).toNat)
    ∧ (∀ (s : State) (v : Word), s.Inv → s.Ready →
      s.wp.toNat + 8 * groupCount (zigZagCode (v.setWidth 16 : Half).toInt).toNat ≤ 32 * s.capw.toNat →
      ∃ t, exec (.addshort v) s = .next t ∧ t.Answers 0x00 0 ∧ t = { s with wp := t.wp, words := t.words, rsp := t.rsp }
        ∧ s.AppendsVarint t (zigZagCode (v.setWidth 16 : Half).toInt).toNat)

/-- R76, R77, R79, R81, R82: where a complete varint of at most five groups stands at the read cursor, PEEKUINT and READUINT answer its value
on 32 bits (a fifth group's excess bits and over-long encodings included), PEEKUSHORT and READUSHORT the value's low 16 bits; the reads move
RP past the groups, the peeks change nothing. -/
def Obligations.UnsignedReadsDecodeTheVarint : Prop :=
  ∀ (s : State) (g : List Byte), s.Inv → s.Ready → s.VarintAtRp g →
    exec .peekuint s = .next { s with rsp := some (responseWord 0x00 (BitVec.ofNat 32 (groupsValue g))) }
      ∧ (∃ t, exec .readuint s = .next t ∧ t.rp.toNat = s.rp.toNat + 8 * g.length
        ∧ t = { s with rp := t.rp, rsp := some (responseWord 0x00 (BitVec.ofNat 32 (groupsValue g))) })
      ∧ exec .peekushort s = .next { s with rsp := some (responseWord 0x00 (BitVec.ofNat 32 (groupsValue g % 2 ^ 16))) }
      ∧ (∃ t, exec .readushort s = .next t ∧ t.rp.toNat = s.rp.toNat + 8 * g.length
        ∧ t = { s with rp := t.rp, rsp := some (responseWord 0x00 (BitVec.ofNat 32 (groupsValue g % 2 ^ 16))) })

/-- R73, R74, R79, R87, R88: where a complete varint of at most five groups stands at the read cursor, PEEKINT and READINT answer the signed
number whose zig-zag code is its value on 32 bits, PEEKSHORT and READSHORT the low 16 bits of that number, sign-extended; the reads move RP
past the groups, the peeks change nothing. -/
def Obligations.SignedReadsDecodeTheVarint : Prop :=
  ∀ (s : State) (g : List Byte), s.Inv → s.Ready → s.VarintAtRp g →
    ∃ r q : Word, r.toInt = zigZagValue (groupsValue g % 2 ^ 32) ∧ q.toInt = (BitVec.ofInt 16 r.toInt).toInt
      ∧ exec .peekint s = .next { s with rsp := some (responseWord 0x00 r) }
      ∧ (∃ t, exec .readint s = .next t ∧ t.rp.toNat = s.rp.toNat + 8 * g.length
        ∧ t = { s with rp := t.rp, rsp := some (responseWord 0x00 r) })
      ∧ exec .peekshort s = .next { s with rsp := some (responseWord 0x00 q) }
      ∧ (∃ t, exec .readshort s = .next t ∧ t.rp.toNat = s.rp.toNat + 8 * g.length
        ∧ t = { s with rp := t.rp, rsp := some (responseWord 0x00 q) })

/-- R83 (a), R89 (a), R72 to R76: at `RP = WP`, what ADDUINT or ADDINT appends READUINT or READINT reads back exactly, and what ADDUSHORT or
ADDSHORT appends reads back as the operand's low 16 bits, zero- or sign-extended; the buffer is finished again. -/
def Obligations.IntegerRoundTrips : Prop :=
  ∀ (s : State) (v : Word), s.Inv → s.Ready → s.rp = s.wp → s.wp.toNat + 40 ≤ 32 * s.capw.toNat →
    (∃ t u, exec (.adduint v) s = .next t ∧ exec .readuint t = .next u ∧ u.Answers 0x00 v ∧ u.rp = u.wp)
      ∧ (∃ t u, exec (.addint v) s = .next t ∧ exec .readint t = .next u ∧ u.Answers 0x00 v ∧ u.rp = u.wp)
      ∧ (∃ t u, exec (.addushort v) s = .next t ∧ exec .readushort t = .next u
        ∧ u.Answers 0x00 (BitVec.ofNat 32 (v.toNat % 2 ^ 16)) ∧ u.rp = u.wp)
      ∧ (∃ t u, exec (.addshort v) s = .next t ∧ exec .readshort t = .next u
        ∧ u.Answers 0x00 (BitVec.ofInt 32 (v.setWidth 16 : Half).toInt) ∧ u.rp = u.wp)

/-- R89 (c), R72, R75: ADDINT has the effect of ADDUINT of the zig-zag code, ADDSHORT that of ADDINT of the sign-extended low half, ADDUSHORT
that of ADDUINT of the zero-extended low half. -/
def Obligations.IntegerAddsShareOneCodec : Prop :=
  ∀ (s : State) (v : Word),
    exec (.addint v) s = exec (.adduint (zigZag v)) s
      ∧ exec (.addshort v) s = exec (.addint ((v.setWidth 16 : Half).signExtend 32)) s
      ∧ exec (.addushort v) s = exec (.adduint ((v.setWidth 16 : Half).setWidth 32)) s

/-! ## Framing -/

/-- R90: `Hsb(b)` is one more than the largest index of a set bit of `b`, and 0 for the zero byte; a last byte whose `Hsb` is 0 never gives a
cursor, since FROMARRAY raises BadFrame first. -/
def Obligations.HsbFindsTheHighestBit : Prop :=
  hsb 0 = 0
    ∧ (∀ b : Byte, b ≠ 0 → ∃ k < 8, hsb b = k + 1 ∧ b.getLsbD k = true ∧ ∀ j, k < j → b.getLsbD j = false)
    ∧ (∀ (s : State) (l : Word), s.Idle → 1 ≤ l.toNat → l.toNat ≤ s.cfg.fcap.toNat → hsb (s.frameByte (l.toNat - 1)) = 0 →
        exec (.fromarray l) s = .next (s.afterException 0x02 false))

/-- R92, R29, R30: TOARRAY appends the sentinel 1 and answers the byte length of the post-sentinel cursor; every frame byte below `dstLen`
and inside the words that hold valid bits is that byte of the buffer, and no other byte of the frame memory changes; RP, LIVE and CAPW stay. -/
def Obligations.ToarrayWritesTheFrame : Prop :=
  ∀ (s : State) (d : Word), s.Inv → s.Ready → d.toNat ≤ s.cfg.fcap.toNat → s.wp.toNat + 1 ≤ 32 * s.capw.toNat →
    ∃ t, exec (.toarray d) s = .next t
      ∧ t = { s with wp := t.wp, words := t.words, frame := t.frame, rsp := t.rsp }
      ∧ t.Answers 0x00 (BitVec.ofNat 32 (s.wp.toNat / 8 + 1))
      ∧ s.Appends t 1 1
      ∧ (∀ j, j < d.toNat → j < 4 * (s.wp.toNat / 32 + 1) → t.HoldsByte j (t.frameByte j))
      ∧ (∀ j, d.toNat ≤ j ∨ 4 * (s.wp.toNat / 32 + 1) ≤ j → t.frameByte j = s.frameByte j)

/-- R93, R29, R90: FROMARRAY of a frame whose last byte is not zero acquires `ceil(length / 4)` data words, byte `j` of the buffer is frame byte
`j`, the bits from there to the last data word's end are zero, and WP is the position of the highest set bit of the last byte; the frame
memory and the words from the guard word up stay. -/
def Obligations.FromarrayRebuildsTheBuffer : Prop :=
  ∀ (s : State) (l : Word), s.Inv → s.Idle → 1 ≤ l.toNat → l.toNat ≤ s.cfg.fcap.toNat → s.frameByte (l.toNat - 1) ≠ 0 →
    ∃ t k, exec (.fromarray l) s = .next t
      ∧ t = { s with live := true, capw := t.capw, rp := 0, wp := t.wp, words := t.words, rsp := t.rsp }
      ∧ t.Answers 0x00 t.wp
      ∧ t.capw.toNat = (l.toNat + 3) / 4
      ∧ k < 8 ∧ (s.frameByte (l.toNat - 1)).getLsbD k = true
      ∧ (∀ j, k < j → (s.frameByte (l.toNat - 1)).getLsbD j = false)
      ∧ t.wp.toNat = (l.toNat - 1) * 8 + k
      ∧ (∀ j < l.toNat, t.HoldsByte j (s.frameByte j))
      ∧ (∀ p, 8 * l.toNat ≤ p → p < 32 * t.capw.toNat → t.bit p = false)
      ∧ (∀ i, t.capw.toNat ≤ i → t.word i = s.word i)

/-- R94 (a): a buffer framed whole by TOARRAY, released, and rebuilt by FROMARRAY of the frame's bytes has the write cursor and every bit it
had before, and is unread. -/
def Obligations.FramingRoundTrip : Prop :=
  ∀ (s : State) (d l : Word), s.Inv → s.Ready → d.toNat ≤ s.cfg.fcap.toNat → s.wp.toNat + 1 ≤ 32 * s.capw.toNat →
    l.toNat = s.wp.toNat / 8 + 1 → l.toNat ≤ d.toNat →
    ∃ t u v, exec (.toarray d) s = .next t ∧ t.Answers 0x00 l ∧ exec .release t = .next u ∧ exec (.fromarray l) u = .next v
      ∧ v.live = true ∧ v.rp = 0 ∧ v.wp = s.wp ∧ v.capw.toNat = (l.toNat + 3) / 4
      ∧ ∀ p < s.wp.toNat, v.bit p = s.bit p

/-- R94 (c): FROMARRAY and then TOARRAY into at least as many bytes answers the length and leaves the frame's bytes as they were. -/
def Obligations.ReframingGivesTheSameFrame : Prop :=
  ∀ (s : State) (d l : Word), s.Inv → s.Idle → 1 ≤ l.toNat → l.toNat ≤ d.toNat → d.toNat ≤ s.cfg.fcap.toNat →
    s.frameByte (l.toNat - 1) ≠ 0 →
    ∃ t u, exec (.fromarray l) s = .next t ∧ exec (.toarray d) t = .next u ∧ u.Answers 0x00 l
      ∧ ∀ j < l.toNat, u.frameByte j = s.frameByte j

/-- R111: TOARRAY's answer is GETLEN's answer before it, plus one exactly when WP is a multiple of 8. -/
def Obligations.SentinelMayOpenAByte : Prop :=
  ∀ (s : State) (d : Word), s.Inv → s.Ready → d.toNat ≤ s.cfg.fcap.toNat → 1 ≤ s.wp.toNat →
    s.wp.toNat + 1 ≤ 32 * s.capw.toNat →
    ∃ t u a b, exec .getlen s = .next t ∧ t.Answers 0x00 a ∧ exec (.toarray d) s = .next u ∧ u.Answers 0x00 b
      ∧ b.toNat = a.toNat + (if s.wp.toNat % 8 = 0 then 1 else 0)

/-! ## The whole machine -/

/-- R22, R26: the state after reset meets the invariant, for every configuration that meets R5. -/
def Obligations.ResetMeetsTheInvariant : Prop :=
  ∀ c : Config, c.wf → (State.resetWith c).Inv

/-- R22, R21, R23: every step keeps the invariant: the cursors ordered and inside the buffer, the guard word inside the word memory, a
released engine empty, a dead one with its cause, both memories canonical, every word below WP written. -/
def Obligations.StepKeepsTheInvariant : Prop :=
  ∀ s t : State, s.Inv → step s = .next t → t.Inv

/-- R46, R96, R119: from a state that meets the invariant every command ends in a next state with a response; no check of the spec lets it
reach an address that does not exist. -/
def Obligations.EveryCommandEndsInAResponse : Prop :=
  ∀ (i : Instr) (s : State), s.Inv → ∃ t status result, exec i s = .next t ∧ t.Answers status result

/-- R7, R27 (log 7): from a state that meets the invariant a step stops only where the host writes a frame byte that does not exist, and it
never refuses. -/
def Obligations.OnlyAHostWriteOutsideStops : Prop :=
  ∀ s : State, s.Inv → (∃ t, step s = .next t)
    ∨ ∃ a b rest, s.host = .writeFrame a b :: rest ∧ s.cfg.fcap.toNat ≤ a ∧ step s = .fault (.frameOutside a)

/-- R17, R19, R20: no command changes the parameters or the host's moves; only TOARRAY changes the frame memory; only the ADD family, NEW,
TOARRAY and FROMARRAY change the word memory. -/
def Obligations.MemoriesChangeOnlyByTheirWriters : Prop :=
  ∀ (i : Instr) (s t : State), exec i s = .next t →
    t.cfg = s.cfg ∧ t.host = s.host
      ∧ (i.writesFrame = false → t.frame = s.frame) ∧ (i.writesWords = false → t.words = s.words)

/-- R22 (e): while a buffer is live, no command but CLEAR and RELEASE lowers a cursor. -/
def Obligations.CursorsOnlyIncrease : Prop :=
  ∀ (i : Instr) (s t : State), s.Inv → s.live = true → i ≠ .clear → i ≠ .release → exec i s = .next t →
    s.wp.toNat ≤ t.wp.toNat ∧ s.rp.toNat ≤ t.rp.toNat

/-- R23: stale storage is unobservable. Two states that agree but for bits at and above WP give, under every command, the same response, the
same registers and the same frame memory, and agree so again. -/
def Obligations.StaleStorageIsUnobservable : Prop :=
  ∀ (i : Instr) (s t s' : State), s.Inv → s.AgreeBelowWp t → exec i s = .next s' →
    ∃ t', exec i t = .next t' ∧ s'.AgreeBelowWp t'
end

