-- ==== Sys2Proof/Laws/Encoding.lean ====
section
/-! SUPPORT. The fields of a command word that was put together from them, and of a response word. -/

namespace Sys2Proof

variable (op n : Byte) (aux : Half) (imm : Word)

theorem commandWord_toNat :
    (commandWord op n aux imm).toNat = op.toNat * 2 ^ 56 + n.toNat * 2 ^ 48 + aux.toNat * 2 ^ 32 + imm.toNat := by
  simp only [commandWord, BitVec.toNat_append]
  rw [← Nat.shiftLeft_add_eq_or_of_lt n.isLt, ← Nat.shiftLeft_add_eq_or_of_lt aux.isLt,
    ← Nat.shiftLeft_add_eq_or_of_lt imm.isLt]
  simp only [Nat.shiftLeft_eq]
  omega

@[simp] theorem opField_commandWord : opField (commandWord op n aux imm) = op := by
  apply BitVec.eq_of_toNat_eq
  have := commandWord_toNat op n aux imm
  simp only [opField, BitVec.extractLsb'_toNat, Nat.shiftRight_eq_div_pow, this]
  omega

@[simp] theorem nField_commandWord : nField (commandWord op n aux imm) = n := by
  apply BitVec.eq_of_toNat_eq
  have := commandWord_toNat op n aux imm
  simp only [nField, BitVec.extractLsb'_toNat, Nat.shiftRight_eq_div_pow, this]
  omega

@[simp] theorem auxField_commandWord : auxField (commandWord op n aux imm) = aux := by
  apply BitVec.eq_of_toNat_eq
  have := commandWord_toNat op n aux imm
  simp only [auxField, BitVec.extractLsb'_toNat, Nat.shiftRight_eq_div_pow, this]
  omega

@[simp] theorem immField_commandWord : immField (commandWord op n aux imm) = imm := by
  apply BitVec.eq_of_toNat_eq
  have := commandWord_toNat op n aux imm
  simp only [immField, BitVec.extractLsb'_toNat, Nat.shiftRight_eq_div_pow, this]
  omega

/-- A command word is the word of its four fields. -/
theorem commandWord_fields (w : CommandWord) :
    commandWord (opField w) (nField w) (auxField w) (immField w) = w := by
  apply BitVec.eq_of_toNat_eq
  rw [commandWord_toNat]
  simp only [opField, nField, auxField, immField, BitVec.extractLsb'_toNat, Nat.shiftRight_eq_div_pow]
  have := w.isLt
  omega

namespace Machine

variable (st st' : Byte) (r r' : Word)

theorem responseWord_toNat : (responseWord st r).toNat = st.toNat * 2 ^ 32 + r.toNat := by
  simp only [responseWord, BitVec.toNat_append]
  rw [← Nat.shiftLeft_add_eq_or_of_lt r.isLt, Nat.shiftLeft_eq]

@[simp] theorem responseStatus_responseWord : responseStatus (responseWord st r) = st := by
  apply BitVec.eq_of_toNat_eq
  have := responseWord_toNat st r
  simp only [responseStatus, BitVec.extractLsb'_toNat, Nat.shiftRight_eq_div_pow, this]
  omega

@[simp] theorem responseResult_responseWord : responseResult (responseWord st r) = r := by
  apply BitVec.eq_of_toNat_eq
  have := responseWord_toNat st r
  simp only [responseResult, BitVec.extractLsb'_toNat, Nat.shiftRight_eq_div_pow, this]
  omega

@[simp] theorem responseWord_inj : responseWord st r = responseWord st' r' ↔ st = st' ∧ r = r' := by
  constructor
  · intro h
    have h1 := congrArg responseStatus h
    have h2 := congrArg responseResult h
    simp at h1 h2
    exact ⟨h1, h2⟩
  · rintro ⟨rfl, rfl⟩; rfl

end Machine

end Sys2Proof
end

