-- ==== Sys2Proof/Laws/State.lean ====
section
/-! SUPPORT. What each named update of the state leaves in each field: the response, an exception, reset, and the placing of a command. -/

namespace Sys2Proof.Machine

section Respond
variable (s : State) (st : Byte) (r : Word)

@[simp] theorem respond_cfg : (respond s st r).cfg = s.cfg := rfl
@[simp] theorem respond_rp : (respond s st r).rp = s.rp := rfl
@[simp] theorem respond_wp : (respond s st r).wp = s.wp := rfl
@[simp] theorem respond_capw : (respond s st r).capw = s.capw := rfl
@[simp] theorem respond_live : (respond s st r).live = s.live := rfl
@[simp] theorem respond_fatal : (respond s st r).fatal = s.fatal := rfl
@[simp] theorem respond_cause : (respond s st r).cause = s.cause := rfl
@[simp] theorem respond_words : (respond s st r).words = s.words := rfl
@[simp] theorem respond_frame : (respond s st r).frame = s.frame := rfl
@[simp] theorem respond_rsp : (respond s st r).rsp = some (responseWord st r) := rfl
@[simp] theorem respond_host : (respond s st r).host = s.host := rfl
@[simp] theorem respond_word (i : Nat) : (respond s st r).word i = s.word i := rfl
@[simp] theorem respond_bit (p : Nat) : (respond s st r).bit p = s.bit p := rfl
@[simp] theorem respond_frameByte (a : Nat) : (respond s st r).frameByte a = s.frameByte a := rfl

end Respond

section Raise
variable (s : State) (e : Exc)

@[simp] theorem raise_cfg : (raise s e).cfg = s.cfg := rfl
@[simp] theorem raise_rp : (raise s e).rp = s.rp := rfl
@[simp] theorem raise_wp : (raise s e).wp = s.wp := rfl
@[simp] theorem raise_capw : (raise s e).capw = s.capw := rfl
@[simp] theorem raise_live : (raise s e).live = s.live := rfl
@[simp] theorem raise_fatal : (raise s e).fatal = (s.fatal || e.isFatal) := rfl
@[simp] theorem raise_cause : (raise s e).cause = e.code := rfl
@[simp] theorem raise_words : (raise s e).words = s.words := rfl
@[simp] theorem raise_frame : (raise s e).frame = s.frame := rfl
@[simp] theorem raise_rsp : (raise s e).rsp = some (responseWord e.code 0) := rfl
@[simp] theorem raise_host : (raise s e).host = s.host := rfl

end Raise

section Reset
variable (s : State) (c : Config)

@[simp] theorem resetWith_cfg : (State.resetWith c).cfg = c := rfl
@[simp] theorem resetWith_rp : (State.resetWith c).rp = 0 := rfl
@[simp] theorem resetWith_wp : (State.resetWith c).wp = 0 := rfl
@[simp] theorem resetWith_capw : (State.resetWith c).capw = 0 := rfl
@[simp] theorem resetWith_live : (State.resetWith c).live = false := rfl
@[simp] theorem resetWith_fatal : (State.resetWith c).fatal = false := rfl
@[simp] theorem resetWith_cause : (State.resetWith c).cause = 0 := rfl
@[simp] theorem resetWith_words : (State.resetWith c).words = [] := rfl
@[simp] theorem resetWith_frame : (State.resetWith c).frame = [] := rfl
@[simp] theorem resetWith_rsp : (State.resetWith c).rsp = none := rfl
@[simp] theorem resetWith_host : (State.resetWith c).host = [] := rfl

@[simp] theorem applyReset_cfg : (applyReset s).cfg = s.cfg := rfl
@[simp] theorem applyReset_rp : (applyReset s).rp = 0 := rfl
@[simp] theorem applyReset_wp : (applyReset s).wp = 0 := rfl
@[simp] theorem applyReset_capw : (applyReset s).capw = 0 := rfl
@[simp] theorem applyReset_live : (applyReset s).live = false := rfl
@[simp] theorem applyReset_fatal : (applyReset s).fatal = false := rfl
@[simp] theorem applyReset_cause : (applyReset s).cause = 0 := rfl
@[simp] theorem applyReset_words : (applyReset s).words = s.words := rfl
@[simp] theorem applyReset_frame : (applyReset s).frame = s.frame := rfl
@[simp] theorem applyReset_rsp : (applyReset s).rsp = none := rfl
@[simp] theorem applyReset_host : (applyReset s).host = s.host := rfl

end Reset

section Fetch
variable (s : State) (nbits w : Nat)

@[simp] theorem withFetchWord_host :
    (s.withFetchWord nbits w).host = .command (BitVec.ofNat 64 (w % 2 ^ nbits)) :: s.host := rfl
@[simp] theorem withFetchWord_cfg : (s.withFetchWord nbits w).cfg = s.cfg := rfl
@[simp] theorem withFetchWord_words : (s.withFetchWord nbits w).words = s.words := rfl
@[simp] theorem withFetchWord_frame : (s.withFetchWord nbits w).frame = s.frame := rfl

end Fetch

end Sys2Proof.Machine
end

