-- ==== Sys2Proof/Laws/Ops.lean ====
section
/-! SUPPORT. What each shared operation can do: binds of algorithms, the checks of R98, the execution template of R51, the word memory, the
bit datapath of R56 and R57. -/

namespace Sys2Proof.Machine

/-! ## Algorithms -/

theorem bind_eq_ok {α β : Type} {x : Except Stop α} {f : α → Except Stop β} {b : β} :
    (x >>= f) = .ok b ↔ ∃ a, x = .ok a ∧ f a = .ok b := by
  cases x with
  | ok a => exact ⟨fun h => ⟨a, rfl, h⟩, fun ⟨_, h, hf⟩ => by cases h; exact hf⟩
  | error e =>
    constructor
    · intro h; cases h
    · intro h; obtain ⟨_, h, _⟩ := h; cases h

theorem bind_eq_error {α β : Type} {x : Except Stop α} {f : α → Except Stop β} {e : Stop} :
    (x >>= f) = .error e ↔ x = .error e ∨ ∃ a, x = .ok a ∧ f a = .error e := by
  cases x with
  | ok a => exact ⟨fun h => .inr ⟨a, rfl, h⟩, fun h => by
      rcases h with h | ⟨_, h, hf⟩
      · cases h
      · cases h; exact hf⟩
  | error e' =>
    constructor
    · intro h; cases h; exact .inl rfl
    · intro h
      rcases h with h | ⟨_, h, _⟩
      · cases h; rfl
      · cases h

@[simp] theorem ok_bind {α β : Type} (a : α) (f : α → Except Stop β) : ((.ok a : Except Stop α) >>= f) = f a := rfl
@[simp] theorem error_bind {α β : Type} (e : Stop) (f : α → Except Stop β) :
    ((.error e : Except Stop α) >>= f) = .error e := rfl
@[simp] theorem throwExc_bind {α β : Type} (e : Exc) (f : α → Except Stop β) :
    ((throwExc e : Except Stop α) >>= f) = throwExc e := rfl
@[simp] theorem throwFault_bind {α β : Type} (e : Fault) (f : α → Except Stop β) :
    ((throwFault e : Except Stop α) >>= f) = throwFault e := rfl
@[simp] theorem pure_eq_ok {α : Type} (a : α) : (pure a : Except Stop α) = .ok a := rfl

/-! ## The checks of R98 -/

theorem checkLive_eq (s : State) : checkLive s = if s.live then .ok () else throwExc .notLive := rfl

theorem checkLive_ok {s : State} (h : s.live = true) : checkLive s = .ok () := by simp [checkLive, h]

theorem checkLive_error {s : State} (h : s.live = false) : checkLive s = throwExc .notLive := by simp [checkLive, h]

theorem checkNotLive_ok {s : State} (h : s.live = false) : checkNotLive s = .ok () := by simp [checkNotLive, h]

theorem checkNotLive_error {s : State} (h : s.live = true) : checkNotLive s = throwExc .alreadyLive := by
  simp [checkNotLive, h]

theorem checkWidth_ok {n : Byte} (h1 : 1 ≤ n.toNat) (h2 : n.toNat ≤ 32) : checkWidth n = .ok () := by
  unfold checkWidth; rw [if_neg (by omega)]

theorem checkWidth_error {n : Byte} (h : n.toNat = 0 ∨ 32 < n.toNat) : checkWidth n = throwExc .badWidth := by
  unfold checkWidth; rw [if_pos (by omega)]

theorem checkRoom_ok {s : State} {k : Nat} (h : s.wp.toNat + k ≤ 32 * s.capw.toNat) : checkRoom s k = .ok () := by
  unfold checkRoom; rw [if_neg (by omega)]

theorem checkRoom_error {s : State} {k : Nat} (h : 32 * s.capw.toNat < s.wp.toNat + k) :
    checkRoom s k = throwExc .capacityExceeded := by
  unfold checkRoom; rw [if_pos (by omega)]

theorem checkAvail_ok {s : State} {pos k : Nat} (h : pos + k ≤ s.wp.toNat) : checkAvail s pos k = .ok () := by
  unfold checkAvail; rw [if_neg (by omega)]

theorem checkAvail_error {s : State} {pos k : Nat} (h : s.wp.toNat < pos + k) :
    checkAvail s pos k = throwExc .readOverrun := by
  unfold checkAvail; rw [if_pos (by omega)]

theorem checkFrameSize_ok {s : State} {len : Word} (h : len.toNat ≤ s.cfg.fcap.toNat) : checkFrameSize s len = .ok () := by
  unfold checkFrameSize; rw [if_neg (by omega)]

theorem checkFrameSize_error {s : State} {len : Word} (h : s.cfg.fcap.toNat < len.toNat) :
    checkFrameSize s len = throwExc .resourceLimit := by
  unfold checkFrameSize; rw [if_pos (by omega)]

/-! ## The execution template of R51 -/

@[simp] theorem complete_ok (s t : State) (r : Word) : complete s (.ok (t, r)) = .next (respond t statusOk r) := rfl
@[simp] theorem complete_throwExc (s : State) (e : Exc) : complete s (throwExc e) = .next (raise s e) := rfl
@[simp] theorem complete_exc (s : State) (e : Exc) : complete s (.error (.exc e)) = .next (raise s e) := rfl
@[simp] theorem complete_fault (s : State) (f : Fault) : complete s (.error (.fault f)) = .fault f := rfl

theorem command_dead {s : State} (h : s.fatal = true) (body : Except Stop (State × Word)) :
    command s body = .next (respond s statusDead 0) := by simp [command, h]

theorem command_alive {s : State} (h : s.fatal = false) (body : Except Stop (State × Word)) :
    command s body = complete s body := by simp [command, h]

/-- Everything a command can do when it answers a next state: it is Dead, it succeeds, or it raises an exception. -/
theorem command_next_cases {s t : State} {body : Except Stop (State × Word)} (h : command s body = .next t) :
    (s.fatal = true ∧ t = respond s statusDead 0)
      ∨ (s.fatal = false ∧ ∃ u r, body = .ok (u, r) ∧ t = respond u statusOk r)
      ∨ (s.fatal = false ∧ ∃ e, body = .error (.exc e) ∧ t = raise s e) := by
  unfold command at h
  split at h
  · rename_i hf; cases h; exact .inl ⟨hf, rfl⟩
  · rename_i hf
    have hf : s.fatal = false := by simpa using hf
    rcases body with (e | f) | ⟨u, r⟩
    · cases h; exact .inr (.inr ⟨hf, e, rfl, rfl⟩)
    · cases h
    · cases h; exact .inr (.inl ⟨hf, u, r, rfl, rfl⟩)

/-- A command stops the machine only where its algorithm faults. -/
theorem command_fault_cases {s : State} {body : Except Stop (State × Word)} {f : Fault} (h : command s body = .fault f) :
    s.fatal = false ∧ body = .error (.fault f) := by
  unfold command at h
  split at h
  · cases h
  · rename_i hf
    rcases body with (e | g) | ⟨u, r⟩
    · cases h
    · cases h; exact ⟨by simpa using hf, rfl⟩
    · cases h

theorem command_ne_refused {s : State} {body : Except Stop (State × Word)} {r : Refusal} : command s body ≠ .refused r := by
  unfold command
  split
  · nofun
  · rcases body with (e | g) | ⟨u, r⟩ <;> nofun

/-! ## The word memory -/

theorem loadWord_ok {s : State} {i : Nat} (h : i < s.cfg.wcap.toNat) : loadWord s i = .ok (s.word i) := by
  simp [loadWord, h]

theorem storeWord_ok {s : State} {i : Nat} (h : i < s.cfg.wcap.toNat) (v : Word) :
    storeWord s i v = .ok { s with words := Memory.write s.words i v } := by
  simp [storeWord, h]

/-- Everything a store to the word memory can do when it succeeds. -/
theorem storeWord_eq_ok {s t : State} {i : Nat} {v : Word} (h : storeWord s i v = .ok t) :
    i < s.cfg.wcap.toNat ∧ t = { s with words := Memory.write s.words i v } := by
  unfold storeWord at h
  split at h
  · rename_i hi; cases h; exact ⟨hi, rfl⟩
  · cases h

theorem word_write (s : State) (i : Nat) (v : Word) (j : Nat) :
    ({ s with words := Memory.write s.words i v } : State).word j = if j = i then v else s.word j := by
  simp only [State.word, Memory.read_write]
  split <;> rfl

/-! ## The bit datapath -/

theorem mask_getLsbD (n k : Nat) : (mask n).getLsbD k = (decide (k < n) && decide (k < 32)) := by
  simp only [mask, BitVec.getLsbD_ofNat, Nat.testBit_two_pow_sub_one]
  rw [Bool.and_comm]

/-- The existing bits below the offset are R56's `W[i] & mask(o)`, at offset 0 too (log 14). -/
theorem keepBelow_eq_and_mask (w : Word) (o : Nat) : keepBelow w o = w &&& mask o := by
  unfold keepBelow
  split
  · rename_i h; subst h; simp [mask]
  · rfl

theorem keepBelow_getLsbD (w : Word) (o k : Nat) : (keepBelow w o).getLsbD k = (decide (k < o) && w.getLsbD k) := by
  rw [keepBelow_eq_and_mask, BitVec.getLsbD_and, mask_getLsbD]
  by_cases hk : k < 32
  · by_cases ho : k < o <;> simp [hk, ho]
  · simp [BitVec.getLsbD_of_ge w k (by omega)]

/-- The staging value bit by bit (R56): the old bits below the offset, the field above them, zeros above the field. -/
theorem staging_getLsbD (w : Word) {o n : Nat} (v : Word) (ho : o < 32) (hn : n ≤ 32) (k : Nat) :
    (staging w o n v).getLsbD k =
      if k < o then w.getLsbD k else if k < o + n then v.getLsbD (k - o) else false := by
  simp only [staging, BitVec.getLsbD_or, BitVec.getLsbD_setWidth, BitVec.getLsbD_shiftLeft, keepBelow_getLsbD, BitVec.getLsbD_and,
    mask_getLsbD]
  by_cases h1 : k < o
  · simp [h1, show k < 64 by omega]
  · by_cases h2 : k < o + n
    · simp [h1, h2, show k < 64 by omega, show k - o < 64 by omega, show k - o < n by omega, show k - o < 32 by omega]
    · simp [h1, h2, show ¬ k - o < n by omega]

/-- `BitAdd` succeeds where both its words exist, and this is what it leaves. -/
theorem bitAdd_ok {s : State} {n : Nat} {v : Word} (h : wordIndex s.wp.toNat + 1 < s.cfg.wcap.toNat) :
    bitAdd s n v = .ok { s with
      words := Memory.write
        (Memory.write s.words (wordIndex s.wp.toNat)
          ((staging (s.word (wordIndex s.wp.toNat)) (bitOffset s.wp.toNat) n v).extractLsb' 0 32))
        (wordIndex s.wp.toNat + 1)
        ((staging (s.word (wordIndex s.wp.toNat)) (bitOffset s.wp.toNat) n v).extractLsb' 32 32)
      wp := s.wp + BitVec.ofNat 32 n } := by
  simp only [bitAdd]
  rw [storeWord_ok (by omega), ok_bind, storeWord_ok (by simpa using h)]
  rfl

/-- Everything `BitAdd` can do when it succeeds: both words exist, the cursor moves by `n`, no other register changes, and the word memory
changes in those two words only. -/
theorem bitAdd_eq_ok {s t : State} {n : Nat} {v : Word} (h : bitAdd s n v = .ok t) :
    wordIndex s.wp.toNat + 1 < s.cfg.wcap.toNat
      ∧ t = { s with words := t.words, wp := s.wp + BitVec.ofNat 32 n }
      ∧ t.words = Memory.write
        (Memory.write s.words (wordIndex s.wp.toNat)
          ((staging (s.word (wordIndex s.wp.toNat)) (bitOffset s.wp.toNat) n v).extractLsb' 0 32))
        (wordIndex s.wp.toNat + 1)
        ((staging (s.word (wordIndex s.wp.toNat)) (bitOffset s.wp.toNat) n v).extractLsb' 32 32) := by
  by_cases hw : wordIndex s.wp.toNat + 1 < s.cfg.wcap.toNat
  · rw [bitAdd_ok hw] at h
    cases h
    exact ⟨hw, rfl, rfl⟩
  · exfalso
    simp only [bitAdd] at h
    obtain ⟨u, hu, h⟩ := bind_eq_ok.1 h
    obtain ⟨x, hx, h⟩ := bind_eq_ok.1 h
    obtain ⟨_, rfl⟩ := storeWord_eq_ok hu
    exact hw (storeWord_eq_ok hx).1

/-- `BitAdd`, bit by bit (R56, R64): bits below the cursor stay, the field follows, and the rest of its two words is zero. -/
theorem bitAdd_bit {s t : State} {n : Nat} {v : Word} (hn : n ≤ 32) (h : bitAdd s n v = .ok t) (p : Nat) :
    t.bit p =
      if wordIndex p = wordIndex s.wp.toNat ∨ wordIndex p = wordIndex s.wp.toNat + 1 then
        (if p < s.wp.toNat then s.bit p
         else if p < s.wp.toNat + n then v.getLsbD (p - s.wp.toNat) else false)
      else s.bit p := by
  obtain ⟨_, _, hw⟩ := bitAdd_eq_ok h
  have ho : bitOffset s.wp.toNat < 32 := Nat.mod_lt _ (by omega)
  have hp : wordIndex s.wp.toNat * 32 + bitOffset s.wp.toNat = s.wp.toNat := by
    simp only [wordIndex, bitOffset]; omega
  have hq : wordIndex p * 32 + bitOffset p = p := by simp only [wordIndex, bitOffset]; omega
  have hbp : bitOffset p < 32 := Nat.mod_lt _ (by omega)
  simp only [State.bit, State.word, hw, Memory.read_write]
  by_cases h1 : wordIndex p = wordIndex s.wp.toNat + 1
  · rw [if_pos h1, if_pos (.inr h1)]
    simp only [Option.getD_some, BitVec.getLsbD_extractLsb', staging_getLsbD _ v ho hn, hbp, decide_true, Bool.true_and]
    have a1 : ¬ 32 + bitOffset p < bitOffset s.wp.toNat := by omega
    have a2 : ¬ p < s.wp.toNat := by omega
    rw [if_neg a1, if_neg a2]
    by_cases h2 : p < s.wp.toNat + n
    · have a3 : 32 + bitOffset p < bitOffset s.wp.toNat + n := by omega
      rw [if_pos h2, if_pos a3]; congr 1; omega
    · have a3 : ¬ 32 + bitOffset p < bitOffset s.wp.toNat + n := by omega
      rw [if_neg h2, if_neg a3]
  · rw [if_neg h1]
    by_cases h3 : wordIndex p = wordIndex s.wp.toNat
    · rw [if_pos h3, if_pos (.inl h3)]
      simp only [Option.getD_some, BitVec.getLsbD_extractLsb', staging_getLsbD _ v ho hn, hbp, decide_true, Bool.true_and,
        Nat.zero_add]
      by_cases h4 : p < s.wp.toNat
      · rw [if_pos (by omega), if_pos h4, h3]
      · rw [if_neg (by omega), if_neg h4]
        by_cases h2 : p < s.wp.toNat + n
        · rw [if_pos h2, if_pos (by omega)]; congr 1; omega
        · rw [if_neg h2, if_neg (by omega)]
    · rw [if_neg h3, if_neg (by rintro (h | h) <;> omega)]

theorem fieldOf_getLsbD (lo hi : Word) {o n : Nat} (hn : n ≤ 32) (k : Nat) :
    (fieldOf lo hi o n).getLsbD k =
      (decide (k < n) && if o + k < 32 then lo.getLsbD (o + k) else hi.getLsbD (o + k - 32)) := by
  simp only [fieldOf, BitVec.getLsbD_and, mask_getLsbD, BitVec.getLsbD_setWidth, BitVec.getLsbD_ushiftRight,
    BitVec.getLsbD_append]
  by_cases hk : k < n
  · simp only [hk, show k < 32 by omega, decide_true, Bool.true_and, Bool.and_true]
  · simp [hk]

/-- A field that ends inside its first word is the same whatever the second word holds: the value of R57's two-word formula (log 14). -/
theorem fieldOf_inside_low (lo hi hi' : Word) {o n : Nat} (hn : n ≤ 32) (h : o + n ≤ 32) :
    fieldOf lo hi o n = fieldOf lo hi' o n := by
  apply BitVec.eq_of_getLsbD_eq
  intro k _
  rw [fieldOf_getLsbD _ _ hn, fieldOf_getLsbD _ _ hn]
  by_cases hk : k < n
  · simp [show o + k < 32 by omega]
  · simp [hk]

/-- `BitFetch` is R57's two-word formula wherever both words can be fetched (log 14). -/
theorem bitFetch_two_words {s : State} {pos n : Nat} {lo hi : Word} (hn : n ≤ 32)
    (hlo : loadWord s (wordIndex pos) = .ok lo) (hhi : highWord s (wordIndex pos) = .ok hi) :
    bitFetch s pos n = .ok (fieldOf lo hi (bitOffset pos) n) := by
  simp only [bitFetch, hlo, hhi, ok_bind]
  split
  · rename_i h; rw [pure_eq_ok, fieldOf_inside_low lo 0 hi hn h]
  · rfl

/-- `BitFetch` below the write cursor succeeds, and answers the `n` bits at `pos`, zero-extended (R57, R28). -/
theorem bitFetch_ok {s : State} {pos n : Nat} (hn1 : 1 ≤ n) (hn : n ≤ 32) (hend : pos + n ≤ 32 * s.capw.toNat)
    (hg : s.capw.toNat + 1 ≤ s.cfg.wcap.toNat) :
    ∃ r, bitFetch s pos n = .ok r ∧ ∀ k, r.getLsbD k = (decide (k < n) && s.bit (pos + k)) := by
  have ho : bitOffset pos < 32 := Nat.mod_lt _ (by omega)
  have hp : wordIndex pos * 32 + bitOffset pos = pos := by simp only [wordIndex, bitOffset]; omega
  have hlow : ∀ k, bitOffset pos + k < 32 → s.bit (pos + k) = (s.word (wordIndex pos)).getLsbD (bitOffset pos + k) := by
    intro k hk
    have e1 : wordIndex (pos + k) = wordIndex pos := by simp only [wordIndex, bitOffset] at *; omega
    have e2 : bitOffset (pos + k) = bitOffset pos + k := by simp only [bitOffset] at *; omega
    rw [State.bit, e1, e2]
  simp only [bitFetch]
  rw [loadWord_ok (by omega), ok_bind]
  by_cases h : bitOffset pos + n ≤ 32
  · rw [if_pos h]
    refine ⟨_, rfl, fun k => ?_⟩
    rw [fieldOf_getLsbD _ _ hn]
    by_cases hk : k < n
    · simp [hk, show bitOffset pos + k < 32 by omega, hlow k (by omega)]
    · simp [hk]
  · rw [if_neg h, highWord, if_pos (by omega), loadWord_ok (by omega)]
    refine ⟨_, rfl, fun k => ?_⟩
    rw [fieldOf_getLsbD _ _ hn]
    by_cases hk : k < n
    · by_cases h2 : bitOffset pos + k < 32
      · simp [hk, h2, hlow k h2]
      · have e1 : wordIndex (pos + k) = wordIndex pos + 1 := by simp only [wordIndex, bitOffset] at *; omega
        have e2 : bitOffset (pos + k) = bitOffset pos + k - 32 := by simp only [bitOffset] at *; omega
        simp [hk, h2, State.bit, e1, e2]
    · simp [hk]

/-! ## The frame memory -/

theorem memRead_ok {s : State} {a : Nat} (h : a < s.cfg.fcap.toNat) : memRead s a = .ok (s.frameByte a) := by
  simp [memRead, h]

theorem memWrite_ok {s : State} {a : Nat} (h : a < s.cfg.fcap.toNat) (b : Byte) :
    memWrite s a b = .ok { s with frame := Memory.write s.frame a b } := by
  simp [memWrite, h]

/-- Everything a store to the frame memory can do when it succeeds. -/
theorem memWrite_eq_ok {s t : State} {a : Nat} {b : Byte} (h : memWrite s a b = .ok t) :
    a < s.cfg.fcap.toNat ∧ t = { s with frame := Memory.write s.frame a b } := by
  unfold memWrite at h
  split at h
  · rename_i hi; cases h; exact ⟨hi, rfl⟩
  · cases h

theorem frameByte_write (s : State) (a : Nat) (b : Byte) (c : Nat) :
    ({ s with frame := Memory.write s.frame a b } : State).frameByte c = if c = a then b else s.frameByte c := by
  simp only [State.frameByte, Memory.read_write]
  split <;> rfl

/-- Everything a host write can do when it answers a next state. -/
theorem hostWrite_next {s t : State} {a : Nat} {b : Byte} (h : hostWrite s a b = .next t) :
    a < s.cfg.fcap.toNat ∧ t = { s with frame := Memory.write s.frame a b } := by
  unfold hostWrite at h
  split at h
  · rename_i hi; cases h; exact ⟨hi, rfl⟩
  · cases h

end Sys2Proof.Machine
end

