-- ==== Sys2Proof/Laws/Codec.lean ====
section
/-! SUPPORT. What the codec functions, the shared shapes of the commands and the framing loops can do when they succeed. -/

namespace Sys2Proof.Machine

/-! ## Groups and scans -/

/-- Writing groups changes the write cursor and the word memory only. -/
theorem bitAddBytes_eq_ok {g : List Byte} {s t : State} (h : bitAddBytes s g = .ok t) :
    t = { s with words := t.words, wp := t.wp } := by
  induction g generalizing s with
  | nil => cases h; rfl
  | cons b g ih =>
    obtain ⟨u, hu, h⟩ := bind_eq_ok.1 h
    have h1 := (bitAdd_eq_ok hu).2.1
    have h2 := ih h
    rw [h1] at h2
    exact h2

theorem varintGroupsFrom_length_le (k : Nat) (v : Word) : (varintGroupsFrom k v).length ≤ k := by
  induction k generalizing v with
  | zero => simp [varintGroupsFrom]
  | succ k ih =>
    simp only [varintGroupsFrom]
    split
    · simp
    · simpa using ih _

theorem varintGroups_length_le (v : Word) : (varintGroups v).length ≤ 5 := varintGroupsFrom_length_le 5 v

theorem varintGroups_length_pos (v : Word) : 1 ≤ (varintGroups v).length := by
  simp only [varintGroups, varintGroupsFrom]
  split <;> simp

/-- One round of the scan's loop (R79), unfolded. -/
theorem varintScanFrom_succ (s : State) (k pos : Nat) (res : Word) (shift : Nat) :
    varintScanFrom s (k + 1) pos res shift = (do
      checkAvail s pos 8
      let w ← bitFetch s pos 8
      if (w.setWidth 8 : Byte).getLsbD 7 then varintScanFrom s k (pos + 8) (addGroup res (w.setWidth 8) shift) (shift + 7)
      else return (addGroup res (w.setWidth 8) shift, pos + 8)) := rfl

theorem checkAvail_eq_ok {s : State} {pos k : Nat} {u : Unit} (h : checkAvail s pos k = .ok u) :
    pos + k ≤ s.wp.toNat := by
  unfold checkAvail at h
  split at h
  · cases h
  · omega

theorem checkRoom_eq_ok {s : State} {k : Nat} {u : Unit} (h : checkRoom s k = .ok u) :
    s.wp.toNat + k ≤ 32 * s.capw.toNat := by
  unfold checkRoom at h
  split at h
  · cases h
  · omega

theorem checkLive_eq_ok {s : State} {u : Unit} (h : checkLive s = .ok u) : s.live = true := by
  unfold checkLive at h
  split at h
  · assumption
  · cases h

theorem checkNotLive_eq_ok {s : State} {u : Unit} (h : checkNotLive s = .ok u) : s.live = false := by
  unfold checkNotLive at h
  split at h
  · cases h
  · rename_i hl; simpa using hl

theorem checkWidth_eq_ok {n : Byte} {u : Unit} (h : checkWidth n = .ok u) : 1 ≤ n.toNat ∧ n.toNat ≤ 32 := by
  unfold checkWidth at h
  split at h
  · cases h
  · omega

theorem checkFrameSize_eq_ok {s : State} {len : Word} {u : Unit} (h : checkFrameSize s len = .ok u) :
    len.toNat ≤ s.cfg.fcap.toNat := by
  unfold checkFrameSize at h
  split at h
  · cases h
  · omega

/-- A scan that succeeds has moved past at least one group and stays at or below the write cursor (R79). -/
theorem varintScanFrom_eq_ok {s : State} {k pos shift : Nat} {res c : Word} {fin : Nat}
    (h : varintScanFrom s k pos res shift = .ok (c, fin)) : pos + 8 ≤ fin ∧ fin ≤ pos + 8 * k ∧ fin ≤ s.wp.toNat := by
  induction k generalizing pos res shift with
  | zero => cases h
  | succ k ih =>
    rw [varintScanFrom_succ] at h
    obtain ⟨_, ha, h⟩ := bind_eq_ok.1 h
    have ha := checkAvail_eq_ok ha
    obtain ⟨w, _, h⟩ := bind_eq_ok.1 h
    split at h
    · have := ih h; omega
    · cases h; omega

/-! ## The shared shapes -/

/-- Everything a varint add can do when it succeeds. -/
theorem addVarint_eq_ok {s t : State} {v r : Word} (h : addVarint s v = .ok (t, r)) :
    s.live = true ∧ s.wp.toNat + 8 * (varintGroups v).length ≤ 32 * s.capw.toNat
      ∧ bitAddBytes s (varintGroups v) = .ok t ∧ r = 0 := by
  obtain ⟨_, hl, h⟩ := bind_eq_ok.1 h
  obtain ⟨_, hr, h⟩ := bind_eq_ok.1 h
  obtain ⟨u, hu, h⟩ := bind_eq_ok.1 h
  cases h
  exact ⟨checkLive_eq_ok hl, checkRoom_eq_ok hr, hu, rfl⟩

/-- Everything a varint read can do when it succeeds. -/
theorem readVarint_eq_ok {s t : State} {f : Word → Word} {r : Word} (h : readVarint s f = .ok (t, r)) :
    s.live = true ∧ ∃ c pos, varintScan s = .ok (c, pos) ∧ t = { s with rp := BitVec.ofNat 32 pos } ∧ r = f c := by
  obtain ⟨_, hl, h⟩ := bind_eq_ok.1 h
  obtain ⟨⟨c, pos⟩, hc, h⟩ := bind_eq_ok.1 h
  cases h
  exact ⟨checkLive_eq_ok hl, c, pos, hc, rfl, rfl⟩

/-- Everything a varint peek can do when it succeeds. -/
theorem peekVarint_eq_ok {s t : State} {f : Word → Word} {r : Word} (h : peekVarint s f = .ok (t, r)) :
    s.live = true ∧ t = s ∧ ∃ c pos, varintScan s = .ok (c, pos) ∧ r = f c := by
  obtain ⟨_, hl, h⟩ := bind_eq_ok.1 h
  obtain ⟨⟨c, pos⟩, hc, h⟩ := bind_eq_ok.1 h
  cases h
  exact ⟨checkLive_eq_ok hl, rfl, c, pos, hc, rfl⟩

/-- Everything a fixed-width add can do when it succeeds. -/
theorem addField_eq_ok {s t : State} {n : Nat} {v r : Word} (h : addField s n v = .ok (t, r)) :
    s.wp.toNat + n ≤ 32 * s.capw.toNat ∧ bitAdd s n v = .ok t ∧ r = 0 := by
  obtain ⟨_, hr, h⟩ := bind_eq_ok.1 h
  obtain ⟨u, hu, h⟩ := bind_eq_ok.1 h
  cases h
  exact ⟨checkRoom_eq_ok hr, hu, rfl⟩

/-- Everything a fixed-width read can do when it succeeds. -/
theorem readField_eq_ok {s t : State} {n : Nat} {r : Word} (h : readField s n = .ok (t, r)) :
    s.rp.toNat + n ≤ s.wp.toNat ∧ bitFetch s s.rp.toNat n = .ok r ∧ t = { s with rp := s.rp + BitVec.ofNat 32 n } := by
  obtain ⟨_, ha, h⟩ := bind_eq_ok.1 h
  obtain ⟨u, hu, h⟩ := bind_eq_ok.1 h
  cases h
  exact ⟨checkAvail_eq_ok ha, hu, rfl⟩

/-- Everything a fixed-width peek can do when it succeeds. -/
theorem peekField_eq_ok {s t : State} {n : Nat} {r : Word} (h : peekField s n = .ok (t, r)) :
    s.rp.toNat + n ≤ s.wp.toNat ∧ bitFetch s s.rp.toNat n = .ok r ∧ t = s := by
  obtain ⟨_, ha, h⟩ := bind_eq_ok.1 h
  obtain ⟨u, hu, h⟩ := bind_eq_ok.1 h
  cases h
  exact ⟨checkAvail_eq_ok ha, hu, rfl⟩

/-! ## The framing loops -/

/-- The per-byte copy of one word changes the frame memory only. -/
theorem copyBytes_eq_ok {s t : State} {dstLen i k : Nat} {w : Word} (h : copyBytes s dstLen i w k = .ok t) :
    t = { s with frame := t.frame } := by
  induction k generalizing t with
  | zero => cases h; rfl
  | succ k ih =>
    obtain ⟨u, hu, h⟩ := bind_eq_ok.1 h
    have hu := ih hu
    split at h
    · obtain ⟨_, rfl⟩ := memWrite_eq_ok h
      rw [hu]
    · cases h; exact hu

/-- The copy of the words changes the frame memory only. -/
theorem copyWords_eq_ok {s t : State} {dstLen n : Nat} (h : copyWords s dstLen n = .ok t) :
    t = { s with frame := t.frame } := by
  induction n generalizing t with
  | zero => cases h; rfl
  | succ n ih =>
    obtain ⟨u, hu, h⟩ := bind_eq_ok.1 h
    obtain ⟨w, _, h⟩ := bind_eq_ok.1 h
    have hu := ih hu
    have ht := copyBytes_eq_ok h
    rw [hu] at ht
    exact ht

/-- Rebuilding the words changes the word memory only. -/
theorem loadFrame_eq_ok {s t : State} {length n : Nat} (h : loadFrame s length n = .ok t) :
    t = { s with words := t.words } := by
  induction n generalizing t with
  | zero => cases h; rfl
  | succ n ih =>
    obtain ⟨u, hu, h⟩ := bind_eq_ok.1 h
    obtain ⟨w, _, h⟩ := bind_eq_ok.1 h
    have hu := ih hu
    obtain ⟨_, rfl⟩ := storeWord_eq_ok h
    rw [hu]

theorem byteOf_getLsbD (w : Word) (j k : Nat) : (byteOf w j).getLsbD k = (decide (k < 8) && w.getLsbD (8 * j + k)) := by
  simp [byteOf, BitVec.getLsbD_extractLsb']

/-- The scan of the low `k` bits answers a position from 0 to `k`. -/
theorem hsbFrom_le (b : Byte) (k : Nat) : hsbFrom b k ≤ k := by
  induction k with
  | zero => simp [hsbFrom]
  | succ k ih =>
    simp only [hsbFrom]
    split
    · simp
    · omega

end Sys2Proof.Machine
end

