-- ==== Sys2Proof/Laws/PerInstr.lean ====
section
/-! SUPPORT. The family of statements made per instruction: the encoded word of every command, whatever its operands, has the fixed bits of
the command's own row of the opcode map (spec R44). -/

namespace Sys2Proof

theorem commandWord_and (a a' b b' : Byte) (c c' : Half) (d d' : Word) :
    commandWord a b c d &&& commandWord a' b' c' d' = commandWord (a &&& a') (b &&& b') (c &&& c') (d &&& d') := by
  unfold commandWord
  rw [BitVec.and_append, BitVec.and_append, BitVec.and_append]

/-- A word with opcode `op` and zeros in the fields that the mask fixes has the row's fixed bits. -/
theorem matches_row {op n n' : Byte} {aux aux' : Half} {imm imm' : Word} {m k : CommandWord}
    (hm : m = commandWord 0xFF n' aux' imm') (hn : n &&& n' = 0) (ha : aux &&& aux' = 0) (hi : imm &&& imm' = 0)
    (hk : k = commandWord op 0 0 0) : commandWord op n aux imm &&& m = k := by
  have hop : op &&& 0xFF = op := by
    rw [show (0xFF : Byte) = BitVec.allOnes 8 from rfl, BitVec.and_allOnes]
  rw [hm, hk, commandWord_and, hn, ha, hi, hop]

/-- The mnemonic of a command (R44). -/
def Instr.mnemonic : Instr → String
  | .new _ _ => "NEW"
  | .release => "RELEASE"
  | .rdcsr _ => "RDCSR"
  | .add _ _ => "ADD"
  | .read _ => "READ"
  | .peek _ => "PEEK"
  | .clear => "CLEAR"
  | .getlen => "GETLEN"
  | .isfin => "ISFIN"
  | .addbool _ => "ADDBOOL"
  | .readbool => "READBOOL"
  | .peekbool => "PEEKBOOL"
  | .addbyte _ => "ADDBYTE"
  | .readbyte => "READBYTE"
  | .peekbyte => "PEEKBYTE"
  | .addshort _ => "ADDSHORT"
  | .readshort => "READSHORT"
  | .peekshort => "PEEKSHORT"
  | .addushort _ => "ADDUSHORT"
  | .readushort => "READUSHORT"
  | .peekushort => "PEEKUSHORT"
  | .adduint _ => "ADDUINT"
  | .readuint => "READUINT"
  | .peekuint => "PEEKUINT"
  | .addint _ => "ADDINT"
  | .readint => "READINT"
  | .peekint => "PEEKINT"
  | .toarray _ => "TOARRAY"
  | .fromarray _ => "FROMARRAY"

/-- Some row of the opcode map names the command, and the command's word has that row's opcode and fixed bits. -/
def Laws.Encoded.Statement (i : Instr) : Prop :=
  ∃ r ∈ opcodeTable, r.mnemonic = i.mnemonic ∧ opField (encode i) = r.op ∧ encode i &&& r.mask = r.matchBits

theorem Laws.Encoded.new (capBytes : Word) (ident : Half) : Laws.Encoded.Statement (.new capBytes ident) :=
  ⟨⟨0x01, "NEW", .AI, 0x0100000000000000, 0xFFFF000000000000⟩, by simp [opcodeTable, opcodeTableRaw, opcodeTableTyped, opcodeTableCodec], rfl,
    opField_commandWord _ _ _ _, matches_row (n' := 0xFF) (aux' := 0) (imm' := 0) (by decide) (by simp) (by simp) (by simp) (by decide)⟩

theorem Laws.Encoded.release : Laws.Encoded.Statement .release :=
  ⟨⟨0x02, "RELEASE", .Z, 0x0200000000000000, 0xFFFFFFFFFFFFFFFF⟩, by simp [opcodeTable, opcodeTableRaw, opcodeTableTyped, opcodeTableCodec], rfl,
    opField_commandWord _ _ _ _, matches_row (n' := 0xFF) (aux' := 0xFFFF) (imm' := 0xFFFFFFFF) (by decide) (by simp) (by simp) (by simp) (by decide)⟩

theorem Laws.Encoded.rdcsr (n : Byte) : Laws.Encoded.Statement (.rdcsr n) :=
  ⟨⟨0x03, "RDCSR", .C, 0x0300000000000000, 0xFF00FFFFFFFFFFFF⟩, by simp [opcodeTable, opcodeTableRaw, opcodeTableTyped, opcodeTableCodec], rfl,
    opField_commandWord _ _ _ _, matches_row (n' := 0) (aux' := 0xFFFF) (imm' := 0xFFFFFFFF) (by decide) (by simp) (by simp) (by simp) (by decide)⟩

theorem Laws.Encoded.add (n : Byte) (value : Word) : Laws.Encoded.Statement (.add n value) :=
  ⟨⟨0x10, "ADD", .WI, 0x1000000000000000, 0xFF00FFFF00000000⟩, by simp [opcodeTable, opcodeTableRaw, opcodeTableTyped, opcodeTableCodec], rfl,
    opField_commandWord _ _ _ _, matches_row (n' := 0) (aux' := 0xFFFF) (imm' := 0) (by decide) (by simp) (by simp) (by simp) (by decide)⟩

theorem Laws.Encoded.read (n : Byte) : Laws.Encoded.Statement (.read n) :=
  ⟨⟨0x11, "READ", .W, 0x1100000000000000, 0xFF00FFFFFFFFFFFF⟩, by simp [opcodeTable, opcodeTableRaw, opcodeTableTyped, opcodeTableCodec], rfl,
    opField_commandWord _ _ _ _, matches_row (n' := 0) (aux' := 0xFFFF) (imm' := 0xFFFFFFFF) (by decide) (by simp) (by simp) (by simp) (by decide)⟩

theorem Laws.Encoded.peek (n : Byte) : Laws.Encoded.Statement (.peek n) :=
  ⟨⟨0x12, "PEEK", .W, 0x1200000000000000, 0xFF00FFFFFFFFFFFF⟩, by simp [opcodeTable, opcodeTableRaw, opcodeTableTyped, opcodeTableCodec], rfl,
    opField_commandWord _ _ _ _, matches_row (n' := 0) (aux' := 0xFFFF) (imm' := 0xFFFFFFFF) (by decide) (by simp) (by simp) (by simp) (by decide)⟩

theorem Laws.Encoded.clear : Laws.Encoded.Statement .clear :=
  ⟨⟨0x13, "CLEAR", .Z, 0x1300000000000000, 0xFFFFFFFFFFFFFFFF⟩, by simp [opcodeTable, opcodeTableRaw, opcodeTableTyped, opcodeTableCodec], rfl,
    opField_commandWord _ _ _ _, matches_row (n' := 0xFF) (aux' := 0xFFFF) (imm' := 0xFFFFFFFF) (by decide) (by simp) (by simp) (by simp) (by decide)⟩

theorem Laws.Encoded.getlen : Laws.Encoded.Statement .getlen :=
  ⟨⟨0x14, "GETLEN", .Z, 0x1400000000000000, 0xFFFFFFFFFFFFFFFF⟩, by simp [opcodeTable, opcodeTableRaw, opcodeTableTyped, opcodeTableCodec], rfl,
    opField_commandWord _ _ _ _, matches_row (n' := 0xFF) (aux' := 0xFFFF) (imm' := 0xFFFFFFFF) (by decide) (by simp) (by simp) (by simp) (by decide)⟩

theorem Laws.Encoded.isfin : Laws.Encoded.Statement .isfin :=
  ⟨⟨0x15, "ISFIN", .Z, 0x1500000000000000, 0xFFFFFFFFFFFFFFFF⟩, by simp [opcodeTable, opcodeTableRaw, opcodeTableTyped, opcodeTableCodec], rfl,
    opField_commandWord _ _ _ _, matches_row (n' := 0xFF) (aux' := 0xFFFF) (imm' := 0xFFFFFFFF) (by decide) (by simp) (by simp) (by simp) (by decide)⟩

theorem Laws.Encoded.addbool (imm : Word) : Laws.Encoded.Statement (.addbool imm) :=
  ⟨⟨0x20, "ADDBOOL", .I, 0x2000000000000000, 0xFFFFFFFF00000000⟩, by simp [opcodeTable, opcodeTableRaw, opcodeTableTyped, opcodeTableCodec], rfl,
    opField_commandWord _ _ _ _, matches_row (n' := 0xFF) (aux' := 0xFFFF) (imm' := 0) (by decide) (by simp) (by simp) (by simp) (by decide)⟩

theorem Laws.Encoded.readbool : Laws.Encoded.Statement .readbool :=
  ⟨⟨0x21, "READBOOL", .Z, 0x2100000000000000, 0xFFFFFFFFFFFFFFFF⟩, by simp [opcodeTable, opcodeTableRaw, opcodeTableTyped, opcodeTableCodec], rfl,
    opField_commandWord _ _ _ _, matches_row (n' := 0xFF) (aux' := 0xFFFF) (imm' := 0xFFFFFFFF) (by decide) (by simp) (by simp) (by simp) (by decide)⟩

theorem Laws.Encoded.peekbool : Laws.Encoded.Statement .peekbool :=
  ⟨⟨0x22, "PEEKBOOL", .Z, 0x2200000000000000, 0xFFFFFFFFFFFFFFFF⟩, by simp [opcodeTable, opcodeTableRaw, opcodeTableTyped, opcodeTableCodec], rfl,
    opField_commandWord _ _ _ _, matches_row (n' := 0xFF) (aux' := 0xFFFF) (imm' := 0xFFFFFFFF) (by decide) (by simp) (by simp) (by simp) (by decide)⟩

theorem Laws.Encoded.addbyte (imm : Word) : Laws.Encoded.Statement (.addbyte imm) :=
  ⟨⟨0x24, "ADDBYTE", .I, 0x2400000000000000, 0xFFFFFFFF00000000⟩, by simp [opcodeTable, opcodeTableRaw, opcodeTableTyped, opcodeTableCodec], rfl,
    opField_commandWord _ _ _ _, matches_row (n' := 0xFF) (aux' := 0xFFFF) (imm' := 0) (by decide) (by simp) (by simp) (by simp) (by decide)⟩

theorem Laws.Encoded.readbyte : Laws.Encoded.Statement .readbyte :=
  ⟨⟨0x25, "READBYTE", .Z, 0x2500000000000000, 0xFFFFFFFFFFFFFFFF⟩, by simp [opcodeTable, opcodeTableRaw, opcodeTableTyped, opcodeTableCodec], rfl,
    opField_commandWord _ _ _ _, matches_row (n' := 0xFF) (aux' := 0xFFFF) (imm' := 0xFFFFFFFF) (by decide) (by simp) (by simp) (by simp) (by decide)⟩

theorem Laws.Encoded.peekbyte : Laws.Encoded.Statement .peekbyte :=
  ⟨⟨0x26, "PEEKBYTE", .Z, 0x2600000000000000, 0xFFFFFFFFFFFFFFFF⟩, by simp [opcodeTable, opcodeTableRaw, opcodeTableTyped, opcodeTableCodec], rfl,
    opField_commandWord _ _ _ _, matches_row (n' := 0xFF) (aux' := 0xFFFF) (imm' := 0xFFFFFFFF) (by decide) (by simp) (by simp) (by simp) (by decide)⟩

theorem Laws.Encoded.addshort (imm : Word) : Laws.Encoded.Statement (.addshort imm) :=
  ⟨⟨0x28, "ADDSHORT", .I, 0x2800000000000000, 0xFFFFFFFF00000000⟩, by simp [opcodeTable, opcodeTableRaw, opcodeTableTyped, opcodeTableCodec], rfl,
    opField_commandWord _ _ _ _, matches_row (n' := 0xFF) (aux' := 0xFFFF) (imm' := 0) (by decide) (by simp) (by simp) (by simp) (by decide)⟩

theorem Laws.Encoded.readshort : Laws.Encoded.Statement .readshort :=
  ⟨⟨0x29, "READSHORT", .Z, 0x2900000000000000, 0xFFFFFFFFFFFFFFFF⟩, by simp [opcodeTable, opcodeTableRaw, opcodeTableTyped, opcodeTableCodec], rfl,
    opField_commandWord _ _ _ _, matches_row (n' := 0xFF) (aux' := 0xFFFF) (imm' := 0xFFFFFFFF) (by decide) (by simp) (by simp) (by simp) (by decide)⟩

theorem Laws.Encoded.peekshort : Laws.Encoded.Statement .peekshort :=
  ⟨⟨0x2A, "PEEKSHORT", .Z, 0x2A00000000000000, 0xFFFFFFFFFFFFFFFF⟩, by simp [opcodeTable, opcodeTableRaw, opcodeTableTyped, opcodeTableCodec], rfl,
    opField_commandWord _ _ _ _, matches_row (n' := 0xFF) (aux' := 0xFFFF) (imm' := 0xFFFFFFFF) (by decide) (by simp) (by simp) (by simp) (by decide)⟩

theorem Laws.Encoded.addushort (imm : Word) : Laws.Encoded.Statement (.addushort imm) :=
  ⟨⟨0x2C, "ADDUSHORT", .I, 0x2C00000000000000, 0xFFFFFFFF00000000⟩, by simp [opcodeTable, opcodeTableRaw, opcodeTableTyped, opcodeTableCodec], rfl,
    opField_commandWord _ _ _ _, matches_row (n' := 0xFF) (aux' := 0xFFFF) (imm' := 0) (by decide) (by simp) (by simp) (by simp) (by decide)⟩

theorem Laws.Encoded.readushort : Laws.Encoded.Statement .readushort :=
  ⟨⟨0x2D, "READUSHORT", .Z, 0x2D00000000000000, 0xFFFFFFFFFFFFFFFF⟩, by simp [opcodeTable, opcodeTableRaw, opcodeTableTyped, opcodeTableCodec], rfl,
    opField_commandWord _ _ _ _, matches_row (n' := 0xFF) (aux' := 0xFFFF) (imm' := 0xFFFFFFFF) (by decide) (by simp) (by simp) (by simp) (by decide)⟩

theorem Laws.Encoded.peekushort : Laws.Encoded.Statement .peekushort :=
  ⟨⟨0x2E, "PEEKUSHORT", .Z, 0x2E00000000000000, 0xFFFFFFFFFFFFFFFF⟩, by simp [opcodeTable, opcodeTableRaw, opcodeTableTyped, opcodeTableCodec], rfl,
    opField_commandWord _ _ _ _, matches_row (n' := 0xFF) (aux' := 0xFFFF) (imm' := 0xFFFFFFFF) (by decide) (by simp) (by simp) (by simp) (by decide)⟩

theorem Laws.Encoded.adduint (imm : Word) : Laws.Encoded.Statement (.adduint imm) :=
  ⟨⟨0x30, "ADDUINT", .I, 0x3000000000000000, 0xFFFFFFFF00000000⟩, by simp [opcodeTable, opcodeTableRaw, opcodeTableTyped, opcodeTableCodec], rfl,
    opField_commandWord _ _ _ _, matches_row (n' := 0xFF) (aux' := 0xFFFF) (imm' := 0) (by decide) (by simp) (by simp) (by simp) (by decide)⟩

theorem Laws.Encoded.readuint : Laws.Encoded.Statement .readuint :=
  ⟨⟨0x31, "READUINT", .Z, 0x3100000000000000, 0xFFFFFFFFFFFFFFFF⟩, by simp [opcodeTable, opcodeTableRaw, opcodeTableTyped, opcodeTableCodec], rfl,
    opField_commandWord _ _ _ _, matches_row (n' := 0xFF) (aux' := 0xFFFF) (imm' := 0xFFFFFFFF) (by decide) (by simp) (by simp) (by simp) (by decide)⟩

theorem Laws.Encoded.peekuint : Laws.Encoded.Statement .peekuint :=
  ⟨⟨0x32, "PEEKUINT", .Z, 0x3200000000000000, 0xFFFFFFFFFFFFFFFF⟩, by simp [opcodeTable, opcodeTableRaw, opcodeTableTyped, opcodeTableCodec], rfl,
    opField_commandWord _ _ _ _, matches_row (n' := 0xFF) (aux' := 0xFFFF) (imm' := 0xFFFFFFFF) (by decide) (by simp) (by simp) (by simp) (by decide)⟩

theorem Laws.Encoded.addint (imm : Word) : Laws.Encoded.Statement (.addint imm) :=
  ⟨⟨0x40, "ADDINT", .I, 0x4000000000000000, 0xFFFFFFFF00000000⟩, by simp [opcodeTable, opcodeTableRaw, opcodeTableTyped, opcodeTableCodec], rfl,
    opField_commandWord _ _ _ _, matches_row (n' := 0xFF) (aux' := 0xFFFF) (imm' := 0) (by decide) (by simp) (by simp) (by simp) (by decide)⟩

theorem Laws.Encoded.readint : Laws.Encoded.Statement .readint :=
  ⟨⟨0x41, "READINT", .Z, 0x4100000000000000, 0xFFFFFFFFFFFFFFFF⟩, by simp [opcodeTable, opcodeTableRaw, opcodeTableTyped, opcodeTableCodec], rfl,
    opField_commandWord _ _ _ _, matches_row (n' := 0xFF) (aux' := 0xFFFF) (imm' := 0xFFFFFFFF) (by decide) (by simp) (by simp) (by simp) (by decide)⟩

theorem Laws.Encoded.peekint : Laws.Encoded.Statement .peekint :=
  ⟨⟨0x42, "PEEKINT", .Z, 0x4200000000000000, 0xFFFFFFFFFFFFFFFF⟩, by simp [opcodeTable, opcodeTableRaw, opcodeTableTyped, opcodeTableCodec], rfl,
    opField_commandWord _ _ _ _, matches_row (n' := 0xFF) (aux' := 0xFFFF) (imm' := 0xFFFFFFFF) (by decide) (by simp) (by simp) (by simp) (by decide)⟩

theorem Laws.Encoded.toarray (dstLen : Word) : Laws.Encoded.Statement (.toarray dstLen) :=
  ⟨⟨0x50, "TOARRAY", .I, 0x5000000000000000, 0xFFFFFFFF00000000⟩, by simp [opcodeTable, opcodeTableRaw, opcodeTableTyped, opcodeTableCodec], rfl,
    opField_commandWord _ _ _ _, matches_row (n' := 0xFF) (aux' := 0xFFFF) (imm' := 0) (by decide) (by simp) (by simp) (by simp) (by decide)⟩

theorem Laws.Encoded.fromarray (length : Word) : Laws.Encoded.Statement (.fromarray length) :=
  ⟨⟨0x51, "FROMARRAY", .I, 0x5100000000000000, 0xFFFFFFFF00000000⟩, by simp [opcodeTable, opcodeTableRaw, opcodeTableTyped, opcodeTableCodec], rfl,
    opField_commandWord _ _ _ _, matches_row (n' := 0xFF) (aux' := 0xFFFF) (imm' := 0) (by decide) (by simp) (by simp) (by simp) (by decide)⟩

end Sys2Proof
end

