-- ==== Sys2Proof/Machine/Assembler.lean ====
section
/-! DEFINITION. The assembler (spec R48, R49): one line of text to one command word. A line is a list of characters; a `;` starts a comment; the
mnemonic is followed by the operands its format has, separated by commas. Text that R48 gives no meaning is rejected (log 15). -/

namespace Sys2Proof.Machine

/-- A space or a tab. -/
def isBlank (c : Char) : Bool := c == ' ' || c == '\t'

/-- Without the blanks at both ends. -/
def trimBlanks (t : List Char) : List Char := ((t.dropWhile isBlank).reverse.dropWhile isBlank).reverse

/-- The operands between the commas; no operand where nothing stands. -/
def splitCommas : List Char → List (List Char)
  | [] => [[]]
  | c :: cs =>
    match splitCommas cs with
    | [] => [[c]]
    | t :: ts => if c == ',' then [] :: t :: ts else (c :: t) :: ts

/-- The value of a digit in a base up to 16. -/
def digitValue (base : Nat) (c : Char) : Option Nat :=
  let k := c.toNat
  let d :=
    if 48 ≤ k ∧ k ≤ 57 then k - 48
    else if 65 ≤ k ∧ k ≤ 70 then k - 55
    else if 97 ≤ k ∧ k ≤ 102 then k - 87
    else base
  if d < base then some d else none

/-- The number with these digits, given the value of those before them. -/
def readDigits (base : Nat) : Nat → List Char → Option Nat
  | acc, [] => some acc
  | acc, c :: cs =>
    match digitValue base c with
    | some d => readDigits base (acc * base + d) cs
    | none => none

/-- An unsigned number: decimal, `0x` hexadecimal or `0b` binary (R48); at least one digit. -/
def readUnsigned : List Char → Option Nat
  | '0' :: 'x' :: c :: cs => readDigits 16 0 (c :: cs)
  | '0' :: 'b' :: c :: cs => readDigits 2 0 (c :: cs)
  | c :: cs => readDigits 10 0 (c :: cs)
  | [] => none

/-- An `imm` operand: a number of at most 32 bits, or with a leading `-` its two's complement on 32 bits (R48). -/
def readImm : List Char → Option Word
  | '-' :: cs =>
    match readUnsigned cs with
    | some k => if k ≤ 2 ^ 31 then some (0 - BitVec.ofNat 32 k) else none
    | none => none
  | cs =>
    match readUnsigned cs with
    | some k => if k < 2 ^ 32 then some (BitVec.ofNat 32 k) else none
    | none => none

/-- An `imm` operand of ADDBOOL may also be `true` or `false` (R48). -/
def readBoolImm (t : List Char) : Option Word :=
  if t = ['t', 'r', 'u', 'e'] then some 1
  else if t = ['f', 'a', 'l', 's', 'e'] then some 0
  else readImm t

/-- A width or a CSR number: 8 bits, unsigned. -/
def readByte (t : List Char) : Option Byte :=
  match readUnsigned t with
  | some k => if k < 2 ^ 8 then some (BitVec.ofNat 8 k) else none
  | none => none

/-- An identifier: 16 bits, unsigned. -/
def readHalf (t : List Char) : Option Half :=
  match readUnsigned t with
  | some k => if k < 2 ^ 16 then some (BitVec.ofNat 16 k) else none
  | none => none

/-- The CSR names of R12, in the order of their numbers. -/
def csrNames : List (List Char × Byte) :=
  [ (['R', 'P'], 0), (['W', 'P'], 1), (['C', 'A', 'P', 'W'], 2), (['S', 'T', 'A', 'T', 'U', 'S'], 3)
  , (['C', 'A', 'U', 'S', 'E'], 4), (['W', 'C', 'A', 'P'], 5), (['F', 'C', 'A', 'P'], 6) ]

/-- RDCSR's operand: a CSR name or a CSR number (R48). -/
def readCsr (t : List Char) : Option Byte :=
  match csrNames.find? fun c => c.1 == t with
  | some c => some c.2
  | none => readByte t

/-- The command word of a mnemonic's row with these operands, in the order the table of R48 shows (NEW: `capBytes`, then the identifier). -/
def assembleRow (r : OpcodeRow) (operands : List (List Char)) : Option CommandWord :=
  match r.format, operands with
  | .Z, [] => some (commandWord r.op 0 0 0)
  | .W, [n] => (readByte n).map fun n => commandWord r.op n 0 0
  | .WI, [n, v] =>
    match readByte n, readImm v with
    | some n, some v => some (commandWord r.op n 0 v)
    | _, _ => none
  | .I, [v] => (if r.op = 0x20 then readBoolImm v else readImm v).map fun v => commandWord r.op 0 0 v
  | .AI, [c, i] =>
    match readImm c, readHalf i with
    | some c, some i => some (commandWord r.op 0 i c)
    | _, _ => none
  | .C, [n] => (readCsr n).map fun n => commandWord r.op n 0 0
  | _, _ => none

/-- One line of assembly (R48), the pseudo-instructions READID and PEEKID of R49 expanded; `none` for a line that is no command. -/
def assembleLine (line : List Char) : Option CommandWord :=
  let t := trimBlanks (line.takeWhile fun c => c != ';')
  let mnemonic := t.takeWhile fun c => !isBlank c
  let rest := trimBlanks (t.dropWhile fun c => !isBlank c)
  let operands := if rest.isEmpty then [] else (splitCommas rest).map trimBlanks
  if mnemonic = ['R', 'E', 'A', 'D', 'I', 'D'] then (if operands.isEmpty then some (encode .readId) else none)
  else if mnemonic = ['P', 'E', 'E', 'K', 'I', 'D'] then (if operands.isEmpty then some (encode .peekId) else none)
  else
    match opcodeTable.find? fun r => r.mnemonic.toList == mnemonic with
    | some r => assembleRow r operands
    | none => none

end Sys2Proof.Machine
end

