-- ==== Sys2Proof/Tests/Slice0.lean ====
section
/-! SUPPORT. Tests of the model's text: expected values come from spec/ (its encoding rules, and the worked rows of 95_test_vectors.md and
96_test_vectors_derived.md), never from the model. The last part shows, for every statement with hypotheses, a state that meets them. -/

namespace Sys2Proof.Machine

/-! ## Well-formed commands (R45 (c)) -/

theorem test_wf_csr_six : (Instr.rdcsr 6).WellFormed := by decide
theorem test_wf_csr_seven_refused : ¬ (Instr.rdcsr 7).WellFormed := by decide
theorem test_wf_csr_255_refused : ¬ (Instr.rdcsr 255).WellFormed := by decide
/-- R44: the width of a raw command is no decode condition. -/
theorem test_wf_width_zero : (Instr.add 0 1).WellFormed ∧ (Instr.read 33).WellFormed ∧ (Instr.peek 255).WellFormed := by decide

/-! ## Decoding: words written out from R41, R42 and R44 (op in bits 63:56, n in 55:48, aux in 47:32, imm in 31:0) -/

theorem test_decode_lifecycle :
    decodeTableWord 64 0x0100123400000010 = some (.new 16 0x1234)
      ∧ decodeTableWord 64 0x0200000000000000 = some .release
      ∧ decodeTableWord 64 0x0303000000000000 = some (.rdcsr 3) := by decide

theorem test_decode_raw :
    decodeTableWord 64 0x10140000000ABCDE = some (.add 20 0xABCDE)
      ∧ decodeTableWord 64 0x1105000000000000 = some (.read 5)
      ∧ decodeTableWord 64 0x1210000000000000 = some (.peek 16)
      ∧ decodeTableWord 64 0x1300000000000000 = some .clear
      ∧ decodeTableWord 64 0x1400000000000000 = some .getlen
      ∧ decodeTableWord 64 0x1500000000000000 = some .isfin := by decide

theorem test_decode_bool_byte :
    decodeTableWord 64 0x2000000000000001 = some (.addbool 1)
      ∧ decodeTableWord 64 0x2100000000000000 = some .readbool
      ∧ decodeTableWord 64 0x2200000000000000 = some .peekbool
      ∧ decodeTableWord 64 0x240000000000007F = some (.addbyte 0x7F)
      ∧ decodeTableWord 64 0x2500000000000000 = some .readbyte
      ∧ decodeTableWord 64 0x2600000000000000 = some .peekbyte := by decide

theorem test_decode_short_ushort :
    decodeTableWord 64 0x28000000FFFF8000 = some (.addshort 0xFFFF8000)
      ∧ decodeTableWord 64 0x2900000000000000 = some .readshort
      ∧ decodeTableWord 64 0x2A00000000000000 = some .peekshort
      ∧ decodeTableWord 64 0x2C0000000000FFFF = some (.addushort 0xFFFF)
      ∧ decodeTableWord 64 0x2D00000000000000 = some .readushort
      ∧ decodeTableWord 64 0x2E00000000000000 = some .peekushort := by decide

theorem test_decode_integers :
    decodeTableWord 64 0x300000000000012C = some (.adduint 300)
      ∧ decodeTableWord 64 0x3100000000000000 = some .readuint
      ∧ decodeTableWord 64 0x3200000000000000 = some .peekuint
      ∧ decodeTableWord 64 0x40000000FFFFFFFB = some (.addint 0xFFFFFFFB)
      ∧ decodeTableWord 64 0x4100000000000000 = some .readint
      ∧ decodeTableWord 64 0x4200000000000000 = some .peekint := by decide

theorem test_decode_framing :
    decodeTableWord 64 0x5000000000000010 = some (.toarray 16)
      ∧ decodeTableWord 64 0x5100000000000005 = some (.fromarray 5) := by decide

/-- R45 (a): opcodes between and around the 29 of R44. -/
theorem test_decode_unknown_opcodes :
    ([0x00, 0x04, 0x0F, 0x16, 0x1F, 0x23, 0x27, 0x2B, 0x2F, 0x33, 0x43, 0x52, 0xFF] : List Nat).all
      (fun op => decodeTableWord 64 (op * 2 ^ 56) == none) = true := by decide

/-- R45 (b): one bit set in a reserved field, at each end of the field, for a word of each format. -/
theorem test_decode_reserved_fields :
    ([0x1300000000000001, 0x1300000080000000, 0x1300000100000000, 0x1380000000000000, 0x1101000100000000, 0x1101000080000000,
      0x1001000100000000, 0x2000800000000001, 0x2001000000000001, 0x0101123400000010, 0x0303000000000001, 0x0303800000000000] :
      List Nat).all (fun w => decodeTableWord 64 w == none) = true := by decide

/-- R45 (c): RDCSR of 7. -/
theorem test_decode_csr_seven : decodeTableWord 64 0x0307000000000000 = none := by decide

/-- R44: 29 rows; a row's fixed opcode bits are its opcode, and no two rows share one. -/
theorem test_opcode_table :
    opcodeTable.length = 29
      ∧ (opcodeTable.all fun r => opField r.matchBits == r.op && opField r.mask == 0xFF && (r.matchBits &&& r.mask) == r.matchBits) = true
      ∧ (opcodeTable.map (·.op)).Nodup := by decide

/-! ## The assembler (R48, R49) -/

theorem test_assemble_examples :
    assembleLine "ADD 20, 0xABCDE".toList = some 0x10140000000ABCDE
      ∧ assembleLine "NEW 16, 0x1234   ; sender".toList = some 0x0100123400000010
      ∧ assembleLine "ADDINT -5".toList = some 0x40000000FFFFFFFB
      ∧ assembleLine "RDCSR STATUS".toList = some 0x0303000000000000
      ∧ assembleLine "ADDBOOL true".toList = some 0x2000000000000001
      ∧ assembleLine "READID".toList = some 0x1110000000000000 := by decide

/-- Log 15: an operand that does not fit, a missing operand, an unknown mnemonic. -/
theorem test_assemble_rejects :
    assembleLine "READ 256".toList = none ∧ assembleLine "ADD 20".toList = none ∧ assembleLine "MOVE 1".toList = none := by decide

/-! ## One step of each command -/

/-- The response and the registers of the vectors' tables: status, result, RP, WP, CAPW, STATUS, CAUSE. -/
def row (i : Instr) (s : State) : Option (List Nat) :=
  match exec i s with
  | .next t =>
    t.rsp.map fun r =>
      [(responseStatus r).toNat, (responseResult r).toNat, t.rp.toNat, t.wp.toNat, t.capw.toNat, (statusWord t).toNat, t.cause.toNat]
  | _ => none

/-- The first three words of the word memory afterwards; `none` where nothing has been written. -/
def wordsAfter (i : Instr) (s : State) : List (Option Word) :=
  match exec i s with
  | .next t => (List.range 3).map (Memory.read t.words)
  | _ => []

/-- The first eight bytes of the frame memory afterwards. -/
def frameAfter (i : Instr) (s : State) : List (Option Byte) :=
  match exec i s with
  | .next t => (List.range 8).map (Memory.read t.frame)
  | _ => []

/-- A live buffer with these cursors, capacity and words. -/
def buffer (rp wp capw : Word) (words : List (Nat × Word)) : State :=
  { State.reset with live := true, rp := rp, wp := wp, capw := capw, words := words }

/-- A released engine whose frame memory starts with these bytes. -/
def frames (bytes : List Byte) : State := { State.reset with frame := bytes.zipIdx.map fun c => (c.2, c.1) }

/-- The same engine after a fatal exception. -/
def dead (s : State) : State := { s with fatal := true, cause := 0x84 }

/-- Program P1 before its row 6 (95_test_vectors.md): the message 0x1234, true, 0x7F, -5; words 2 and 3 hold stale bits. -/
def p1 (rp wp : Word) : State := buffer rp wp 4 [(0, 0x12FF1234), (1, 0), (2, 0xDEADBEEF), (3, 0xCAFEF00D)]

/-- Program P2's buffer after its row 14 (95_test_vectors.md): 300, -300, 65535, -32768, 0xFFFFFFFF, false. -/
def p2 (rp : Word) : State :=
  buffer rp 137 8 [(0, 0x02AC0001), (1, 0xFFFF04D7), (2, 0x03FFFF03), (3, 0xFFFFFFFF), (4, 0x0000000F)]

/-- Program P3's buffer after its row 1 (95_test_vectors.md): six bytes after the identifier, `FF FF FF FF FF 2A`. -/
def p3 (rp : Word) : State := buffer rp 64 3 [(0, 0xFFFF0007), (1, 0x2AFFFFFF), (2, 1)]

/-- P1 row 1. -/
theorem test_new :
    row (.new 16 0x1234) State.reset = some [0, 0, 0, 16, 4, 1, 0]
      ∧ wordsAfter (.new 16 0x1234) State.reset = [some 0x1234, some 0, none] := by decide

/-- R52, R5: 1024 bytes take 256 words and the guard word of the default 257; one byte more is ResourceLimit. -/
theorem test_new_limit :
    row (.new 1024 1) State.reset = some [0, 0, 0, 16, 256, 1, 0]
      ∧ row (.new 1025 1) State.reset = some [0x86, 0, 0, 0, 0, 2, 0x86] := by decide

/-- P1 row 7, P3 row 12. -/
theorem test_release :
    row .release (p1 0 34) = some [0, 0, 0, 0, 0, 0, 0] ∧ row .release State.reset = some [0x81, 0, 0, 0, 0, 2, 0x81] := by decide

/-- P2 row 29, P3 rows 13 and 14 (dead). -/
theorem test_rdcsr :
    row (.rdcsr 1) (p2 137) = some [0, 0x89, 137, 137, 8, 1, 0]
      ∧ row (.rdcsr 3) (dead State.reset) = some [0, 2, 0, 0, 0, 2, 0x84]
      ∧ row (.rdcsr 4) (dead State.reset) = some [0, 0x84, 0, 0, 0, 2, 0x84] := by decide

/-- R5, R12: CSRs 5 and 6. -/
theorem test_rdcsr_parameters :
    row (.rdcsr 5) State.reset = some [0, 257, 0, 0, 0, 0, 0] ∧ row (.rdcsr 6) State.reset = some [0, 1024, 0, 0, 0, 0, 0] := by decide

/-- S9: the two-word write over stale bits. -/
theorem test_add_two_words :
    row (.add 20 0xABCDE) (buffer 0 16 4 [(0, 0x5555BEEF), (1, 0xFFFFFFFF)]) = some [0, 0, 0, 36, 4, 1, 0]
      ∧ wordsAfter (.add 20 0xABCDE) (buffer 0 16 4 [(0, 0x5555BEEF), (1, 0xFFFFFFFF)])
        = [some 0xBCDEBEEF, some 0xA, none] := by decide

/-- S4 row 7: the value's bits above the width are dropped. -/
theorem test_add_drops_high_bits :
    wordsAfter (.add 5 0xFFFFFFF5) (buffer 49 49 4 [(0, 0xFFFFBEEF), (1, 0x0001FFFF)])
      = [some 0xFFFFBEEF, some 0x002BFFFF, some 0] := by decide

/-- S4 rows 10 and 12: reads across a word boundary. -/
theorem test_read :
    row (.read 17) (buffer 54 71 4 [(0, 0xFFFFBEEF), (1, 0xD16BFFFF), (2, 0x48)]) = some [0, 0x12345, 71, 71, 4, 1, 0]
      ∧ row (.read 32) (buffer 71 103 4 [(2, 0xC8), (3, 0x40)]) = some [0, 0x80000001, 103, 103, 4, 1, 0] := by decide

/-- 95_test_vectors.md, Part 2's family table: READ 32 of 20 bits left. -/
theorem test_read_overrun :
    row (.read 32) (buffer 16 36 4 [(0, 0xBCDEBEEF), (1, 0xA)]) = some [3, 0, 16, 36, 4, 1, 3] := by decide

/-- P1 row 9; R98: a width of 33 and of 0. -/
theorem test_peek :
    row (.peek 16) (p1 0 33) = some [0, 0x1234, 0, 33, 4, 1, 0]
      ∧ row (.peek 33) (p1 0 33) = some [0x82, 0, 0, 33, 4, 3, 0x82]
      ∧ row (.peek 0) (p1 0 33) = some [0x82, 0, 0, 33, 4, 3, 0x82] := by decide

/-- R61. -/
theorem test_clear : row .clear (p1 16 33) = some [0, 0, 0, 0, 4, 1, 0] := by decide

/-- S7: 33 bits are 5 bytes, 8 bits are 1; none is LengthUndefined. -/
theorem test_getlen :
    row .getlen (p1 0 33) = some [0, 5, 0, 33, 4, 1, 0]
      ∧ row .getlen (p1 0 8) = some [0, 1, 0, 8, 4, 1, 0]
      ∧ row .getlen (p1 0 0) = some [4, 0, 0, 0, 4, 1, 4] := by decide

/-- P2 rows 25 and 27. -/
theorem test_isfin :
    row .isfin (p2 136) = some [0, 0, 136, 137, 8, 1, 0] ∧ row .isfin (p2 137) = some [0, 1, 137, 137, 8, 1, 0] := by decide

/-- P1 row 2; R56: false over stale ones. -/
theorem test_addbool :
    wordsAfter (.addbool 1) (buffer 0 16 4 [(0, 0x1234), (1, 0)]) = [some 0x00011234, some 0, none]
      ∧ wordsAfter (.addbool 0xFFFFFFFE) (buffer 0 16 4 [(0, 0xFFFF1234), (1, 7)]) = [some 0x00001234, some 0, none] := by decide

/-- P1 row 11. -/
theorem test_readbool : row .readbool (p1 16 33) = some [0, 1, 17, 33, 4, 1, 0] := by decide
/-- P1 row 11, R68. -/
theorem test_peekbool : row .peekbool (p1 16 33) = some [0, 1, 16, 33, 4, 1, 0] := by decide

/-- P1 row 3; R69: the operand's bits above 7 are dropped. -/
theorem test_addbyte :
    wordsAfter (.addbyte 0x7F) (buffer 0 17 4 [(0, 0x00011234), (1, 0)]) = [some 0x00FF1234, some 0, none]
      ∧ wordsAfter (.addbyte 0xAB00007F) (buffer 0 17 4 [(0, 0x00011234), (1, 0)]) = [some 0x00FF1234, some 0, none] := by decide

/-- P1 row 12, P3 row 8. -/
theorem test_readbyte :
    row .readbyte (p1 17 33) = some [0, 0x7F, 25, 33, 4, 1, 0] ∧ row .readbyte (p3 64) = some [3, 0, 64, 64, 3, 1, 3] := by decide
/-- P1 row 12, R71. -/
theorem test_peekbyte : row .peekbyte (p1 17 33) = some [0, 0x7F, 17, 33, 4, 1, 0] := by decide

/-- P2 row 9; the corner of the family table: the operand's high half is ignored. -/
theorem test_addshort :
    wordsAfter (.addshort 0x12348000) (buffer 0 72 8 [(1, 0xFFFF04D7), (2, 3)]) = [none, some 0xFFFF04D7, some 0x03FFFF03]
      ∧ row (.addshort 0xFFFF8000) (buffer 0 72 8 [(2, 3)]) = some [0, 0, 0, 96, 8, 1, 0] := by decide

/-- P2 row 23. -/
theorem test_readshort : row .readshort (p2 72) = some [0, 0xFFFF8000, 96, 137, 8, 1, 0] := by decide
/-- P2 row 22. -/
theorem test_peekshort : row .peekshort (p2 72) = some [0, 0xFFFF8000, 72, 137, 8, 1, 0] := by decide

/-- P2 row 7. -/
theorem test_addushort :
    row (.addushort 65535) (buffer 0 48 8 [(1, 0x4D7)]) = some [0, 0, 0, 72, 8, 1, 0]
      ∧ wordsAfter (.addushort 0xABCDFFFF) (buffer 0 48 8 [(1, 0x4D7)]) = [none, some 0xFFFF04D7, some 3] := by decide

/-- P2 row 21. -/
theorem test_readushort : row .readushort (p2 48) = some [0, 0xFFFF, 72, 137, 8, 1, 0] := by decide
/-- P2 row 21, R77; R76: a five-group value keeps its low 16 bits. -/
theorem test_peekushort :
    row .peekushort (p2 48) = some [0, 0xFFFF, 48, 137, 8, 1, 0]
      ∧ row .peekushort (p2 96) = some [0, 0xFFFF, 96, 137, 8, 1, 0] := by decide

/-- P2 row 3; R80, R98: five groups that do not fit write nothing. -/
theorem test_adduint :
    wordsAfter (.adduint 300) (buffer 0 16 8 [(0, 1), (1, 9)]) = [some 0x02AC0001, some 0, none]
      ∧ row (.adduint 0xFFFFFFFF) (buffer 0 32 2 [(0, 1)]) = some [0x84, 0, 0, 32, 2, 3, 0x84]
      ∧ wordsAfter (.adduint 0xFFFFFFFF) (buffer 0 32 2 [(0, 1)]) = [some 1, none, none] := by decide

/-- P3 rows 7 and 3: a fifth group with excess bits, and five groups that all continue. -/
theorem test_readuint :
    row .readuint (p3 24) = some [0, 0xAFFFFFFF, 64, 64, 3, 1, 0] ∧ row .readuint (p3 16) = some [1, 0, 16, 64, 3, 1, 1] := by decide
/-- P2 row 16. -/
theorem test_peekuint : row .peekuint (p2 16) = some [0, 300, 16, 137, 8, 1, 0] := by decide

/-- P1 row 4; the corner of the family table: the most negative number takes five groups. -/
theorem test_addint :
    wordsAfter (.addint 0xFFFFFFFB) (buffer 0 25 4 [(0, 0x00FF1234), (1, 5)]) = [some 0x12FF1234, some 0, none]
      ∧ wordsAfter (.addint 0x80000000) (buffer 0 32 4 [(0, 1)]) = [some 1, some 0xFFFFFFFF, some 0xF] := by decide

/-- P2 row 20, P1 row 13. -/
theorem test_readint :
    row .readint (p2 32) = some [0, 0xFFFFFED4, 48, 137, 8, 1, 0] ∧ row .readint (p1 25 33) = some [0, 0xFFFFFFFB, 33, 33, 4, 1, 0] := by
  decide
/-- P2 row 19. -/
theorem test_peekint : row .peekint (p2 32) = some [0, 0xFFFFFED4, 32, 137, 8, 1, 0] := by decide

/-- The family table's TOARRAY 16: five bytes of frame, three zero bytes of the last word, no more. -/
theorem test_toarray :
    row (.toarray 16) (p1 0 33) = some [0, 5, 0, 34, 4, 1, 0]
      ∧ frameAfter (.toarray 16) (p1 0 33) = [some 0x34, some 0x12, some 0xFF, some 0x12, some 2, some 0, some 0, some 0] := by decide

/-- R92: a destination of three bytes takes three, and the answer is the whole length. -/
theorem test_toarray_short :
    row (.toarray 3) (p1 0 33) = some [0, 5, 0, 34, 4, 1, 0]
      ∧ frameAfter (.toarray 3) (p1 0 33) = [some 0x34, some 0x12, some 0xFF, none, none, none, none, none] := by decide

/-- P1 row 8. -/
theorem test_fromarray :
    row (.fromarray 5) (frames [0x34, 0x12, 0xFF, 0x12, 2]) = some [0, 33, 0, 33, 2, 1, 0]
      ∧ wordsAfter (.fromarray 5) (frames [0x34, 0x12, 0xFF, 0x12, 2]) = [some 0x12FF1234, some 2, none] := by decide

/-- S1; the family table's BadFrame. -/
theorem test_fromarray_last_byte :
    row (.fromarray 1) (frames [0x28]) = some [0, 5, 0, 5, 1, 1, 0]
      ∧ row (.fromarray 2) (frames [0x34, 0]) = some [2, 0, 0, 0, 0, 0, 2] := by decide

/-! ## Steps -/

/-- What a step leaves, as in `row`. -/
def stepRow (s : State) : Option (List Nat) :=
  match step s with
  | .next t =>
    t.rsp.map fun r =>
      [(responseStatus r).toNat, (responseResult r).toNat, t.rp.toNat, t.wp.toNat, t.capw.toNat, (statusWord t).toNat, t.cause.toNat]
  | _ => none

/-- P1 row 1, as the first command after reset. -/
theorem test_step_runs_new : stepRow (State.reset.withFetchWord 64 0x0100123400000010) = some [0, 0, 0, 16, 4, 1, 0] := by decide

/-- The family table's illegal word, alive and dead (R45, R100). -/
theorem test_step_illegal_word :
    stepRow (State.reset.withFetchWord 64 0) = some [0x85, 0, 0, 0, 0, 2, 0x85]
      ∧ stepRow ((dead State.reset).withFetchWord 64 0) = some [0xFF, 0, 0, 0, 0, 2, 0x84] := by decide

/-- P3 row 15. -/
theorem test_step_dead : stepRow ((dead State.reset).withFetchWord 64 0x5100000000000009) = some [0xFF, 0, 0, 0, 0, 2, 0x84] := by decide

/-! ## Witnesses: the hypotheses of each statement hold together somewhere, at boundary values where its clauses meet -/

/-- A live buffer of one data word whose 32 bits are all written. -/
def oneWord (rp wp : Word) : State := buffer rp wp 1 [(0, 0xFFFFFFFF)]

/-- Four groups that continue and 7 bits of the fifth. -/
def cutVarint : State := buffer 0 39 2 [(0, 0xFFFFFFFF), (1, 0x7F)]

/-- A released engine with a zero at the last byte of its frame memory. -/
def zeroLast : State := { State.reset with frame := [(1023, 0)] }

/-- The state with this move of the host pending. -/
def pending (s : State) (m : HostMove) : State := { s with host := [m] }

theorem witness_DecodeEncodeRoundTrip : (Instr.rdcsr 6).WellFormed ∧ (Instr.new 0xFFFFFFFF 0xFFFF).WellFormed := by decide

theorem witness_EncodeDecodeRoundTrip :
    decode 0x0306000000000000 = .ok (.rdcsr 6) ∧ decode 0x10FF0000FFFFFFFF = .ok (.add 0xFF 0xFFFFFFFF) := ⟨rfl, rfl⟩

theorem witness_StepRunsDecodedCommand :
    (pending State.reset (.command 0x0100123400000010)).host = .command 0x0100123400000010 :: []
      ∧ decode 0x0100123400000010 = .ok (.new 16 0x1234) := ⟨rfl, rfl⟩

theorem witness_PlacedCommandRuns : (Instr.rdcsr 0).WellFormed ∧ Instr.isfin.WellFormed := by decide

theorem witness_IdleStepAndHostWrite :
    State.reset.host = []
      ∧ (pending State.reset (.writeFrame 1023 5)).host = .writeFrame 1023 5 :: [] ∧ 1023 < State.reset.cfg.fcap.toNat
      ∧ (pending State.reset (.writeFrame 1024 5)).host = .writeFrame 1024 5 :: [] ∧ State.reset.cfg.fcap.toNat ≤ 1024 := by decide

theorem witness_ResetClearsTheRegisters : (pending (dead (p1 0 33)) .reset).host = .reset :: [] := rfl

theorem witness_ExceptionsArePrecise :
    (∃ t, exec .getlen (p1 0 33) = .next t) ∧ (∃ t, exec .getlen (dead (p1 0 33)) = .next t)
      ∧ (∃ t, exec .getlen (p1 0 0) = .next t) ∧ (∃ t, exec .getlen State.reset = .next t) :=
  ⟨⟨_, rfl⟩, ⟨_, rfl⟩, ⟨_, rfl⟩, ⟨_, rfl⟩⟩

theorem witness_IllegalWordsRaiseIllegalCommand :
    (pending (p1 0 33) (.command 0x0307000000000000)).host = .command 0x0307000000000000 :: [] ∧ (p1 0 33).fatal = false
      ∧ illegalWord 0x0307000000000000 = true ∧ illegalWord 0x1300000000000001 = true ∧ illegalWord 0 = true := by decide

theorem witness_DeadUntilReset :
    (dead State.reset).fatal = true ∧ decode 0x0306000000000000 = .ok (.rdcsr 6)
      ∧ (∀ n, decode 0x5100000000000009 ≠ .ok (.rdcsr n)) ∧ (∀ n, decode 0x0307000000000000 ≠ .ok (.rdcsr n))
      ∧ (∀ rest, (pending (dead State.reset) (.writeFrame 0 1)).host ≠ .reset :: rest)
      ∧ (∃ t, step (pending (dead State.reset) (.writeFrame 0 1)) = .next t)
      ∧ (∃ t, step (pending (dead State.reset) .reset) = .next t) := by
  refine ⟨rfl, rfl, fun n h => ?_, fun n h => ?_, fun rest h => ?_, ⟨_, rfl⟩, ⟨_, rfl⟩⟩
  · cases (show decode 0x5100000000000009 = .ok (.fromarray 9) from rfl).symm.trans h
  · cases (show decode 0x0307000000000000 = .error (.noSuchCsr 7) from rfl).symm.trans h
  · cases h

theorem witness_NotLiveTraps :
    State.reset.Idle ∧ (Instr.add 0 1).acquires = false ∧ (Instr.add 0 1).isRdcsr = false ∧ Instr.release.acquires = false
      ∧ Instr.release.isRdcsr = false := by decide

theorem witness_AlreadyLiveTraps :
    (p1 0 33).Ready ∧ (Instr.new 0 0).acquires = true ∧ (Instr.fromarray 0).acquires = true := by decide

theorem witness_BadWidthTraps : (p1 0 33).Ready ∧ (0 : Byte).toNat = 0 ∧ 32 < (33 : Byte).toNat := by decide

theorem witness_ResourceLimitTraps :
    State.reset.Idle ∧ State.reset.cfg.wcap.toNat < ((1025 : Word).toNat + 3) / 4 + 1
      ∧ (p1 0 33).Ready ∧ (p1 0 33).cfg.fcap.toNat < (1025 : Word).toNat
      ∧ State.reset.cfg.fcap.toNat < (1025 : Word).toNat := by decide

theorem witness_CapacityExceededTraps :
    (oneWord 0 32).Ready ∧ 32 * (oneWord 0 32).capw.toNat < (oneWord 0 32).wp.toNat + 1
      ∧ 32 * (oneWord 0 1).capw.toNat < (oneWord 0 1).wp.toNat + (32 : Byte).toNat
      ∧ 32 * (oneWord 0 25).capw.toNat < (oneWord 0 25).wp.toNat + 8
      ∧ 32 * (oneWord 0 17).capw.toNat < (oneWord 0 17).wp.toNat + 8 * groupCount (0x80 : Word).toNat
      ∧ 32 * (oneWord 0 17).capw.toNat < (oneWord 0 17).wp.toNat + 8 * groupCount ((0x10080 : Word).toNat % 2 ^ 16)
      ∧ 32 * (oneWord 0 25).capw.toNat < (oneWord 0 25).wp.toNat + 8 * groupCount (zigZagCode (0xFFFFFFFB : Word).toInt).toNat
      ∧ 32 * (oneWord 0 9).capw.toNat
        < (oneWord 0 9).wp.toNat + 8 * groupCount (zigZagCode ((0x8000 : Word).setWidth 16 : Half).toInt).toNat
      ∧ (1024 : Word).toNat ≤ (oneWord 0 32).cfg.fcap.toNat
      ∧ State.reset.Idle ∧ 1 ≤ State.reset.cfg.wcap.toNat := by decide

theorem witness_ReadOverrunTraps :
    (oneWord 1 32).Ready ∧ (oneWord 1 32).wp.toNat < (oneWord 1 32).rp.toNat + (32 : Byte).toNat
      ∧ (oneWord 32 32).wp.toNat < (oneWord 32 32).rp.toNat + 1
      ∧ (oneWord 25 32).wp.toNat < (oneWord 25 32).rp.toNat + 8 := by decide

theorem witness_CutVarintTraps :
    cutVarint.Inv ∧ cutVarint.Ready ∧ allContinue [0xFF, 0xFF, 0xFF, 0xFF] = true
      ∧ cutVarint.rp.toNat + 32 ≤ cutVarint.wp.toNat ∧ cutVarint.wp.toNat < cutVarint.rp.toNat + 40
      ∧ cutVarint.GroupsAt cutVarint.rp.toNat [0xFF, 0xFF, 0xFF, 0xFF] := by decide

theorem witness_CutVarintTraps_no_group :
    (oneWord 25 32).Inv ∧ (oneWord 25 32).Ready ∧ allContinue [] = true ∧ (oneWord 25 32).rp.toNat + 0 ≤ (oneWord 25 32).wp.toNat
      ∧ (oneWord 25 32).wp.toNat < (oneWord 25 32).rp.toNat + 8 ∧ (oneWord 25 32).GroupsAt (oneWord 25 32).rp.toNat [] := by decide

theorem witness_EndlessVarintTraps :
    (p3 16).Inv ∧ (p3 16).Ready ∧ allContinue [0xFF, 0xFF, 0xFF, 0xFF, 0xFF] = true ∧ (p3 16).rp.toNat + 40 ≤ (p3 16).wp.toNat
      ∧ (p3 16).GroupsAt (p3 16).rp.toNat [0xFF, 0xFF, 0xFF, 0xFF, 0xFF] := by decide

theorem witness_BadFrameTraps :
    State.reset.Idle ∧ (0 : Word).toNat ≤ State.reset.cfg.fcap.toNat
      ∧ zeroLast.Idle ∧ (1024 : Word).toNat ≤ zeroLast.cfg.fcap.toNat ∧ zeroLast.frameByte ((1024 : Word).toNat - 1) = 0 := by decide

theorem witness_NewAcquiresBuffer :
    State.reset.Idle ∧ 1 ≤ (1 : Word).toNat ∧ ((1024 : Word).toNat + 3) / 4 + 1 ≤ State.reset.cfg.wcap.toNat := by decide

theorem witness_ReleaseAndClear : (p1 16 33).Ready := by decide

theorem witness_RdcsrReadsTheRegisters : 6 < (7 : Byte).toNat ∧ 6 < (255 : Byte).toNat := by decide

theorem witness_LifecycleLaw :
    (∃ t, exec (.new 16 1) State.reset = .next t ∧ t.Answers 0x00 0) ∧ (∃ t, exec .release (p1 0 33) = .next t ∧ t.Answers 0x00 0)
      ∧ (∃ t, exec (.rdcsr 2) (dead (p1 0 33)) = .next t ∧ t.Answers 0x00 4)
      ∧ (∃ t, exec .clear (p1 0 33) = .next t ∧ t.Answers 0x00 0) :=
  ⟨⟨_, rfl, by decide⟩, ⟨_, rfl, by decide⟩, ⟨_, rfl, by decide⟩, ⟨_, rfl, by decide⟩⟩

theorem witness_FixedWidthAddsAppend :
    (oneWord 0 0).Inv ∧ (oneWord 0 0).Ready ∧ (oneWord 0 0).wp.toNat + (32 : Byte).toNat ≤ 32 * (oneWord 0 0).capw.toNat
      ∧ (oneWord 0 31).Inv ∧ (oneWord 0 31).Ready ∧ (oneWord 0 31).wp.toNat + 1 ≤ 32 * (oneWord 0 31).capw.toNat
      ∧ (oneWord 0 24).Inv ∧ (oneWord 0 24).Ready ∧ (oneWord 0 24).wp.toNat + 8 ≤ 32 * (oneWord 0 24).capw.toNat := by and_intros <;> decide

theorem witness_RawReadsReturnTheField :
    (oneWord 0 32).Inv ∧ (oneWord 0 32).Ready ∧ (oneWord 0 32).rp.toNat + (32 : Byte).toNat ≤ (oneWord 0 32).wp.toNat
      ∧ (p2 100).Inv ∧ (p2 100).Ready ∧ (p2 100).rp.toNat + (32 : Byte).toNat ≤ (p2 100).wp.toNat := by decide

theorem witness_BoolAndByteReadsReturnTheField :
    (oneWord 31 32).Inv ∧ (oneWord 31 32).Ready ∧ (oneWord 31 32).rp.toNat + 1 ≤ (oneWord 31 32).wp.toNat
      ∧ (oneWord 24 32).Inv ∧ (oneWord 24 32).Ready ∧ (oneWord 24 32).rp.toNat + 8 ≤ (oneWord 24 32).wp.toNat := by decide

theorem witness_GetlenCountsBytes : (oneWord 0 1).Ready ∧ 1 ≤ (oneWord 0 1).wp.toNat ∧ (oneWord 0 0).Ready ∧ (oneWord 0 0).wp.toNat = 0 := by
  decide

theorem witness_IsfinComparesTheCursors :
    (oneWord 32 32).Ready ∧ (oneWord 32 32).rp.toNat = (oneWord 32 32).wp.toNat
      ∧ (oneWord 31 32).Ready ∧ (oneWord 31 32).rp.toNat ≠ (oneWord 31 32).wp.toNat := by decide

theorem witness_AddThenReadRoundTrip :
    (oneWord 0 0).Inv ∧ (oneWord 0 0).Ready ∧ (oneWord 0 0).rp = (oneWord 0 0).wp
      ∧ (oneWord 0 0).wp.toNat + (32 : Byte).toNat ≤ 32 * (oneWord 0 0).capw.toNat := by decide

theorem witness_OneFieldReadsBackAsTwo :
    (oneWord 0 0).Inv ∧ (oneWord 0 0).Ready ∧ (32 : Byte).toNat = (1 : Byte).toNat + (31 : Byte).toNat
      ∧ (oneWord 0 0).rp = (oneWord 0 0).wp ∧ (oneWord 0 0).wp.toNat + (32 : Byte).toNat ≤ 32 * (oneWord 0 0).capw.toNat := by decide

theorem witness_ReadOnlyCommandsRepeat :
    (Instr.peekuint.readsOnly = true ∧ ∃ t, exec .peekuint (p2 16) = .next t ∧ t.Answers 0x00 300)
      ∧ (Instr.getlen.readsOnly = true ∧ ∃ t, exec .getlen (p2 16) = .next t ∧ t.Answers 0x00 18) :=
  ⟨⟨rfl, _, rfl, by decide⟩, ⟨rfl, _, rfl, by decide⟩⟩

theorem witness_ReadAnswersWhatPeekAnswers :
    (Instr.peek 16, Instr.read 16) ∈ peekReadPairs 16 ∧ (∃ t, exec (.peek 16) (p2 0) = .next t ∧ t.Answers 0x00 1)
      ∧ (Instr.peekint, Instr.readint) ∈ peekReadPairs 16 ∧ ∃ t, exec .peekint (p2 32) = .next t ∧ t.Answers 0x00 0xFFFFFED4 :=
  ⟨by decide, ⟨_, rfl, by decide⟩, by decide, ⟨_, rfl, by decide⟩⟩

theorem witness_UnsignedAddsAppendAVarint :
    (p1 0 88).Inv ∧ (p1 0 88).Ready ∧ (p1 0 88).wp.toNat + 8 * groupCount (0xFFFFFFFF : Word).toNat ≤ 32 * (p1 0 88).capw.toNat
      ∧ (p1 0 104).Inv ∧ (p1 0 104).Ready
      ∧ (p1 0 104).wp.toNat + 8 * groupCount ((0xFFFFFFFF : Word).toNat % 2 ^ 16) ≤ 32 * (p1 0 104).capw.toNat := by decide

theorem witness_SignedAddsAppendAVarint :
    (p1 0 88).Inv ∧ (p1 0 88).Ready
      ∧ (p1 0 88).wp.toNat + 8 * groupCount (zigZagCode (0x80000000 : Word).toInt).toNat ≤ 32 * (p1 0 88).capw.toNat
      ∧ (p1 0 104).Inv ∧ (p1 0 104).Ready
      ∧ (p1 0 104).wp.toNat + 8 * groupCount (zigZagCode ((0x8000 : Word).setWidth 16 : Half).toInt).toNat
        ≤ 32 * (p1 0 104).capw.toNat := by decide

theorem witness_UnsignedReadsDecodeTheVarint :
    (p3 24).Inv ∧ (p3 24).Ready ∧ (p3 24).VarintAtRp [0xFF, 0xFF, 0xFF, 0xFF, 0x2A]
      ∧ (p2 16).Inv ∧ (p2 16).Ready ∧ (p2 16).VarintAtRp [0xAC, 0x02] := by and_intros <;> decide

theorem witness_SignedReadsDecodeTheVarint :
    (p3 24).Inv ∧ (p3 24).Ready ∧ (p3 24).VarintAtRp [0xFF, 0xFF, 0xFF, 0xFF, 0x2A]
      ∧ (p2 32).Inv ∧ (p2 32).Ready ∧ (p2 32).VarintAtRp [0xD7, 0x04] := by and_intros <;> decide

theorem witness_IntegerRoundTrips :
    (p1 88 88).Inv ∧ (p1 88 88).Ready ∧ (p1 88 88).rp = (p1 88 88).wp ∧ (p1 88 88).wp.toNat + 40 ≤ 32 * (p1 88 88).capw.toNat := by
  decide

theorem witness_HsbFindsTheHighestBit :
    (1 : Byte) ≠ 0 ∧ (0x80 : Byte) ≠ 0 ∧ zeroLast.Idle ∧ (1024 : Word).toNat ≤ zeroLast.cfg.fcap.toNat
      ∧ hsb (zeroLast.frameByte ((1024 : Word).toNat - 1)) = 0 := by decide

theorem witness_ToarrayWritesTheFrame :
    (p1 0 127).Inv ∧ (p1 0 127).Ready ∧ (1024 : Word).toNat ≤ (p1 0 127).cfg.fcap.toNat
      ∧ (p1 0 127).wp.toNat + 1 ≤ 32 * (p1 0 127).capw.toNat := by decide

theorem witness_FromarrayRebuildsTheBuffer :
    (frames [0x34, 0x12, 0xFF, 0x12, 2]).Inv ∧ (frames [0x34, 0x12, 0xFF, 0x12, 2]).Idle
      ∧ (frames [0x34, 0x12, 0xFF, 0x12, 2]).frameByte ((5 : Word).toNat - 1) ≠ 0
      ∧ (frames [1]).Inv ∧ (frames [1]).Idle ∧ (frames [1]).frameByte ((1 : Word).toNat - 1) ≠ 0 := by decide

theorem witness_FramingRoundTrip :
    (p1 0 33).Inv ∧ (p1 0 33).Ready ∧ (5 : Word).toNat ≤ (p1 0 33).cfg.fcap.toNat
      ∧ (p1 0 33).wp.toNat + 1 ≤ 32 * (p1 0 33).capw.toNat ∧ (5 : Word).toNat = (p1 0 33).wp.toNat / 8 + 1
      ∧ (p1 0 127).Inv ∧ (p1 0 127).Ready ∧ (16 : Word).toNat = (p1 0 127).wp.toNat / 8 + 1
      ∧ (p1 0 127).wp.toNat + 1 ≤ 32 * (p1 0 127).capw.toNat ∧ (16 : Word).toNat ≤ (1024 : Word).toNat := by decide

theorem witness_ReframingGivesTheSameFrame :
    (frames [0x34, 0x12, 0xFF, 0x12, 2]).Inv ∧ (frames [0x34, 0x12, 0xFF, 0x12, 2]).Idle ∧ (5 : Word).toNat ≤ (1024 : Word).toNat
      ∧ (1024 : Word).toNat ≤ (frames [0x34, 0x12, 0xFF, 0x12, 2]).cfg.fcap.toNat
      ∧ (frames [0x34, 0x12, 0xFF, 0x12, 2]).frameByte ((5 : Word).toNat - 1) ≠ 0 := by decide

theorem witness_SentinelMayOpenAByte :
    (p1 0 32).Inv ∧ (p1 0 32).Ready ∧ 1 ≤ (p1 0 32).wp.toNat ∧ (p1 0 32).wp.toNat + 1 ≤ 32 * (p1 0 32).capw.toNat
      ∧ (p1 0 32).wp.toNat % 8 = 0 ∧ (p1 0 33).Inv ∧ (p1 0 33).Ready ∧ (p1 0 33).wp.toNat % 8 ≠ 0
      ∧ (1024 : Word).toNat ≤ (p1 0 32).cfg.fcap.toNat := by decide

theorem witness_ResetMeetsTheInvariant : Config.default.wf ∧ (Config.mk 2 1).wf ∧ (Config.mk 0x4000000 0xFFFFFFC).wf := by decide

theorem witness_StepKeepsTheInvariant :
    (pending (p1 0 33) (.command 0x5000000000000010)).Inv
      ∧ ∃ t, step (pending (p1 0 33) (.command 0x5000000000000010)) = .next t := ⟨by decide, _, rfl⟩

theorem witness_EveryCommandEndsInAResponse : (p1 0 33).Inv ∧ (dead (p1 0 33)).Inv ∧ State.reset.Inv := by and_intros <;> decide

theorem witness_OnlyAHostWriteOutsideStops :
    (pending (p1 0 33) (.writeFrame 1024 0)).Inv ∧ (pending (p1 0 33) .reset).Inv := by decide

theorem witness_MemoriesChangeOnlyByTheirWriters :
    (∃ t, exec (.add 3 5) (p1 0 33) = .next t) ∧ (Instr.add 3 5).writesFrame = false
      ∧ (∃ t, exec .readint (p1 25 33) = .next t) ∧ Instr.readint.writesWords = false :=
  ⟨⟨_, rfl⟩, rfl, ⟨_, rfl⟩, rfl⟩

theorem witness_CursorsOnlyIncrease :
    (p1 25 33).Inv ∧ (p1 25 33).live = true ∧ Instr.readint ≠ .clear ∧ Instr.readint ≠ .release
      ∧ ∃ t, exec .readint (p1 25 33) = .next t :=
  ⟨by decide, by decide, by decide, by decide, _, rfl⟩

theorem witness_StaleStorageIsUnobservable :
    (p1 0 33).Inv ∧ (p1 0 33).AgreeBelowWp { p1 0 33 with words := [(0, 0x12FF1234), (1, 0xFFFFFFFE)] }
      ∧ ∃ t, exec (.addbyte 7) (p1 0 33) = .next t :=
  ⟨by decide, by decide, _, rfl⟩

end Sys2Proof.Machine
end

/-! SUPPORT. The scope family (spec R7, R26, R27): what a step does with each move of the host, why no algorithm faults from a state that
meets the invariant, and the three statements settled from it. -/

namespace Sys2Proof.Machine

/-! ## One step, move by move -/

theorem step_idle {s : State} (h : s.host = []) : step s = .next s := by
  simp [step, nextMove, h]

theorem step_command {s : State} {w : CommandWord} {rest : List HostMove} (h : s.host = .command w :: rest) :
    step s = issue w { s with host := rest } := by
  simp [step, nextMove, h]

theorem step_writeFrame {s : State} {a : Nat} {b : Byte} {rest : List HostMove} (h : s.host = .writeFrame a b :: rest) :
    step s = hostWrite { s with host := rest } a b := by
  simp [step, nextMove, h]

theorem step_reset {s : State} {rest : List HostMove} (h : s.host = .reset :: rest) :
    step s = .next (applyReset { s with host := rest }) := by
  simp [step, nextMove, h]

theorem issue_of_decode_ok {w : CommandWord} {i : Instr} (h : decode w = .ok i) (s : State) : issue w s = exec i s := by
  simp [issue, h]

theorem issue_of_decode_error {w : CommandWord} {e : DecodeError} (h : decode w = .error e) (s : State) :
    issue w s = illegalCommand s := by
  simp [issue, h]

theorem hostWrite_inside {s : State} {a : Nat} (h : a < s.cfg.fcap.toNat) (b : Byte) :
    hostWrite s a b = .next { s with frame := Memory.write s.frame a b } := by
  simp [hostWrite, h]

theorem hostWrite_outside {s : State} {a : Nat} (h : s.cfg.fcap.toNat ≤ a) (b : Byte) :
    hostWrite s a b = .fault (.frameOutside a) := by
  simp [hostWrite, h]

/-! ## Algorithms that do not fault -/

/-- The algorithm succeeds or raises an exception; it touches no address that does not exist (R27, log 7). -/
def NoFault {α : Type} (x : Except Stop α) : Prop := ∀ f, x ≠ .error (.fault f)

section NoFault

variable {α β : Type}

@[simp] theorem noFault_ok (a : α) : NoFault (.ok a : Except Stop α) := nofun

@[simp] theorem noFault_throwExc (e : Exc) : NoFault (throwExc e : Except Stop α) := nofun

theorem NoFault.bind {x : Except Stop α} {g : α → Except Stop β} (hx : NoFault x) (hg : ∀ a, x = .ok a → NoFault (g a)) :
    NoFault (x >>= g) := by
  intro f h
  rcases bind_eq_error.1 h with h | ⟨a, ha, h⟩
  · exact hx f h
  · exact hg a ha f h

/-- `if c then raise e` before the rest of an algorithm: the rest runs where `c` fails. -/
theorem noFault_ite_throwExc {c : Prop} [Decidable c] {e : Exc} {x : Except Stop α} (hx : ¬ c → NoFault x) :
    NoFault (if c then throwExc e else x) := by
  split
  · exact noFault_throwExc e
  · exact hx ‹_›

end NoFault

theorem checkLive_noFault (s : State) : NoFault (checkLive s) := by
  unfold checkLive; split <;> simp

theorem checkNotLive_noFault (s : State) : NoFault (checkNotLive s) := by
  unfold checkNotLive; split <;> simp

theorem checkWidth_noFault (n : Byte) : NoFault (checkWidth n) := noFault_ite_throwExc fun _ => noFault_ok ()

theorem checkRoom_noFault (s : State) (k : Nat) : NoFault (checkRoom s k) := noFault_ite_throwExc fun _ => noFault_ok ()

theorem checkAvail_noFault (s : State) (pos k : Nat) : NoFault (checkAvail s pos k) := noFault_ite_throwExc fun _ => noFault_ok ()

theorem checkFrameSize_noFault (s : State) (l : Word) : NoFault (checkFrameSize s l) := noFault_ite_throwExc fun _ => noFault_ok ()

/-- The template of R51 turns an algorithm that does not fault into a response (R43, R96, R100). -/
theorem command_answers {s : State} {body : Except Stop (State × Word)} (h : NoFault body) :
    ∃ t status result, command s body = .next t ∧ t.Answers status result := by
  by_cases hf : s.fatal = true
  · exact ⟨_, _, _, command_dead hf body, rfl⟩
  · rw [command_alive (by simpa using hf)]
    rcases body with (e | f) | ⟨u, r⟩
    · exact ⟨_, _, _, rfl, rfl⟩
    · exact absurd rfl (h f)
    · exact ⟨_, _, _, rfl, rfl⟩

/-- A command that needs a live buffer answers where its algorithm after CheckLive does not fault. -/
theorem command_checkLive_answers {s : State} {body : Except Stop (State × Word)} (h : NoFault body) :
    ∃ t status result, command s (checkLive s >>= fun _ => body) = .next t ∧ t.Answers status result :=
  command_answers ((checkLive_noFault s).bind fun _ _ => h)

theorem illegalCommand_answers (s : State) : ∃ t status result, illegalCommand s = .next t ∧ t.Answers status result :=
  command_answers (noFault_throwExc _)

/-! ## The word memory -/

theorem bitAdd_noFault {s : State} {n : Nat} {v : Word} (h : wordIndex s.wp.toNat + 1 < s.cfg.wcap.toNat) :
    NoFault (bitAdd s n v) := by
  rw [bitAdd_ok h]; exact noFault_ok _

theorem bitAdd_cfg {s t : State} {n : Nat} {v : Word} (h : bitAdd s n v = .ok t) : t.cfg = s.cfg := by
  rw [(bitAdd_eq_ok h).2.1]

theorem bitAdd_capw {s t : State} {n : Nat} {v : Word} (h : bitAdd s n v = .ok t) : t.capw = s.capw := by
  rw [(bitAdd_eq_ok h).2.1]

theorem bitAdd_wp_toNat {s t : State} {n : Nat} {v : Word} (h : bitAdd s n v = .ok t) (hn : s.wp.toNat + n < 2 ^ 32) :
    t.wp.toNat = s.wp.toNat + n := by
  rw [(bitAdd_eq_ok h).2.1]
  simp only [BitVec.toNat_add, BitVec.toNat_ofNat]
  omega

theorem wordIndex_succ_lt_of_room {s : State} {p n : Nat} (hg : s.GuardWordFits) (hn : 1 ≤ n) (h : p + n ≤ 32 * s.capw.toNat) :
    wordIndex p + 1 < s.cfg.wcap.toNat := by
  simp only [wordIndex]; omega

/-- R5 bounds the word memory so that no bit position of a buffer reaches `2^32` (log 13). -/
theorem bits_lt_of_guardWordFits {s : State} (hc : s.cfg.wf) (hg : s.GuardWordFits) : 32 * s.capw.toNat < 2 ^ 32 := by
  obtain ⟨-, -, -, hw⟩ := hc
  omega

theorem bitAddBytes_noFault {g : List Byte} {s : State} (hc : s.cfg.wf) (hg : s.GuardWordFits)
    (h : s.wp.toNat + 8 * g.length ≤ 32 * s.capw.toNat) : NoFault (bitAddBytes s g) := by
  induction g generalizing s with
  | nil => exact noFault_ok s
  | cons b g ih =>
    rw [List.length_cons] at h
    have hlt := bits_lt_of_guardWordFits hc hg
    refine (bitAdd_noFault (wordIndex_succ_lt_of_room (n := 8) hg (by omega) (by omega))).bind fun t ht => ?_
    have hwp : t.wp.toNat = s.wp.toNat + 8 := bitAdd_wp_toNat ht (by omega)
    have hcfg := bitAdd_cfg ht
    have hcapw := bitAdd_capw ht
    exact ih (by rwa [hcfg]) (by rwa [State.GuardWordFits, hcfg, hcapw]) (by rw [hwp, hcapw]; omega)

theorem bitFetch_noFault {s : State} {pos n : Nat} (hg : s.GuardWordFits) (hn1 : 1 ≤ n) (hn : n ≤ 32)
    (h : pos + n ≤ 32 * s.capw.toNat) : NoFault (bitFetch s pos n) := by
  obtain ⟨r, hr, -⟩ := bitFetch_ok hn1 hn h hg
  rw [hr]; exact noFault_ok r

/-! ## The shared shapes of the commands -/

theorem addField_noFault {s : State} {n : Nat} {v : Word} (hg : s.GuardWordFits) (hn : 1 ≤ n) : NoFault (addField s n v) :=
  (checkRoom_noFault s n).bind fun _ hr =>
    (bitAdd_noFault (wordIndex_succ_lt_of_room hg hn (checkRoom_eq_ok hr))).bind fun _ _ => noFault_ok _

theorem readField_noFault {s : State} {n : Nat} (hb : s.CursorsInBounds) (hg : s.GuardWordFits) (hn1 : 1 ≤ n) (hn : n ≤ 32) :
    NoFault (readField s n) :=
  (checkAvail_noFault s _ n).bind fun _ ha =>
    (bitFetch_noFault hg hn1 hn ((checkAvail_eq_ok ha).trans hb.2)).bind fun _ _ => noFault_ok _

theorem peekField_noFault {s : State} {n : Nat} (hb : s.CursorsInBounds) (hg : s.GuardWordFits) (hn1 : 1 ≤ n) (hn : n ≤ 32) :
    NoFault (peekField s n) :=
  (checkAvail_noFault s _ n).bind fun _ ha =>
    (bitFetch_noFault hg hn1 hn ((checkAvail_eq_ok ha).trans hb.2)).bind fun _ _ => noFault_ok _

theorem varintScanFrom_noFault {s : State} (hb : s.CursorsInBounds) (hg : s.GuardWordFits) (k pos : Nat) (res : Word) (shift : Nat) :
    NoFault (varintScanFrom s k pos res shift) := by
  induction k generalizing pos res shift with
  | zero => exact noFault_throwExc _
  | succ k ih =>
    rw [varintScanFrom_succ]
    refine (checkAvail_noFault s pos 8).bind fun _ ha => ?_
    have hend : pos + 8 ≤ 32 * s.capw.toNat := (checkAvail_eq_ok ha).trans hb.2
    refine (bitFetch_noFault hg (by omega) (by omega) hend).bind fun w _ => ?_
    split
    · exact ih _ _ _
    · exact noFault_ok _

theorem varintScan_noFault {s : State} (hb : s.CursorsInBounds) (hg : s.GuardWordFits) : NoFault (varintScan s) :=
  varintScanFrom_noFault hb hg 5 _ _ _

theorem addVarint_noFault {s : State} {v : Word} (hc : s.cfg.wf) (hg : s.GuardWordFits) : NoFault (addVarint s v) :=
  (checkLive_noFault s).bind fun _ _ => (checkRoom_noFault s _).bind fun _ hr =>
    (bitAddBytes_noFault hc hg (checkRoom_eq_ok hr)).bind fun _ _ => noFault_ok _

theorem readVarint_noFault {s : State} {f : Word → Word} (hb : s.CursorsInBounds) (hg : s.GuardWordFits) :
    NoFault (readVarint s f) :=
  (checkLive_noFault s).bind fun _ _ => (varintScan_noFault hb hg).bind fun _ _ => noFault_ok _

theorem peekVarint_noFault {s : State} {f : Word → Word} (hb : s.CursorsInBounds) (hg : s.GuardWordFits) :
    NoFault (peekVarint s f) :=
  (checkLive_noFault s).bind fun _ _ => (varintScan_noFault hb hg).bind fun _ _ => noFault_ok _

/-- The raw commands of R58 to R60: the width check leaves only the widths 1 to 32 to the rest of the algorithm. -/
theorem checkWidth_bind_noFault {n : Byte} {x : Except Stop (State × Word)}
    (h : 1 ≤ n.toNat → n.toNat ≤ 32 → NoFault x) : NoFault (checkWidth n >>= fun _ => x) :=
  (checkWidth_noFault n).bind fun _ hw => h (checkWidth_eq_ok hw).1 (checkWidth_eq_ok hw).2

/-! ## The framing loops -/

theorem copyBytes_noFault {s : State} {dstLen : Nat} (hd : dstLen ≤ s.cfg.fcap.toNat) (i : Nat) (w : Word) (k : Nat) :
    NoFault (copyBytes s dstLen i w k) := by
  induction k with
  | zero => exact noFault_ok s
  | succ k ih =>
    refine ih.bind fun t ht => ?_
    have hcfg : t.cfg = s.cfg := by rw [copyBytes_eq_ok ht]
    split
    · rw [memWrite_ok (by rw [hcfg]; omega)]; exact noFault_ok _
    · exact noFault_ok t

theorem copyWords_noFault {s : State} {dstLen : Nat} (hd : dstLen ≤ s.cfg.fcap.toNat) {n : Nat} (hn : n ≤ s.cfg.wcap.toNat) :
    NoFault (copyWords s dstLen n) := by
  induction n with
  | zero => exact noFault_ok s
  | succ n ih =>
    refine (ih (by omega)).bind fun t ht => ?_
    have hcfg : t.cfg = s.cfg := by rw [copyWords_eq_ok ht]
    rw [loadWord_ok (by rw [hcfg]; omega), ok_bind]
    exact copyBytes_noFault (by rwa [hcfg]) n _ 4

theorem sourceByte_noFault {s : State} {length : Nat} (hl : length ≤ s.cfg.fcap.toNat) (j : Nat) :
    NoFault (sourceByte s length j) := by
  unfold sourceByte
  split
  · rw [memRead_ok (by omega)]; exact noFault_ok _
  · exact noFault_ok _

theorem sourceWord_noFault {s : State} {length : Nat} (hl : length ≤ s.cfg.fcap.toNat) (i : Nat) :
    NoFault (sourceWord s length i) :=
  (sourceByte_noFault hl _).bind fun _ _ => (sourceByte_noFault hl _).bind fun _ _ =>
    (sourceByte_noFault hl _).bind fun _ _ => (sourceByte_noFault hl _).bind fun _ _ => noFault_ok _

theorem loadFrame_noFault {s : State} {length : Nat} (hl : length ≤ s.cfg.fcap.toNat) {n : Nat} (hn : n ≤ s.cfg.wcap.toNat) :
    NoFault (loadFrame s length n) := by
  induction n with
  | zero => exact noFault_ok s
  | succ n ih =>
    refine (ih (by omega)).bind fun t ht => ?_
    have hcfg : t.cfg = s.cfg := by rw [loadFrame_eq_ok ht]
    refine (sourceWord_noFault (by rwa [hcfg]) n).bind fun w _ => ?_
    rw [storeWord_ok (by rw [hcfg]; omega)]
    exact noFault_ok _

/-! ## The commands -/

theorem execNew_answers {s : State} (hc : s.cfg.wf) (capBytes : Word) (ident : Half) :
    ∃ t status result, execNew capBytes ident s = .next t ∧ t.Answers status result := by
  have hguard : 1 < s.cfg.wcap.toNat := hc.1
  refine command_answers ((checkNotLive_noFault s).bind fun _ _ => ?_)
  refine noFault_ite_throwExc fun _ => noFault_ite_throwExc fun _ => ?_
  exact (bitAdd_noFault (by simpa [wordIndex] using hguard)).bind fun _ _ => noFault_ok _

theorem execGetlen_answers (s : State) : ∃ t status result, execGetlen s = .next t ∧ t.Answers status result :=
  command_checkLive_answers (noFault_ite_throwExc fun _ => noFault_ok _)

theorem execRdcsr_answers (n : Byte) (s : State) : ∃ t status result, execRdcsr n s = .next t ∧ t.Answers status result := by
  unfold execRdcsr
  split
  · exact ⟨_, _, _, rfl, rfl⟩
  · exact illegalCommand_answers s

/-- The sentinel's room check keeps TOARRAY's writes inside the buffer and the guard word, its size check keeps them inside the frame. -/
theorem execToarray_answers {s : State} (hc : s.cfg.wf) (hg : s.GuardWordFits) (dstLen : Word) :
    ∃ t status result, execToarray dstLen s = .next t ∧ t.Answers status result := by
  refine command_checkLive_answers ((checkFrameSize_noFault s dstLen).bind fun _ hd => (checkRoom_noFault s 1).bind fun _ hr => ?_)
  have hd := checkFrameSize_eq_ok hd
  have hr := checkRoom_eq_ok hr
  have hlt := bits_lt_of_guardWordFits hc hg
  refine (bitAdd_noFault (wordIndex_succ_lt_of_room hg le_rfl hr)).bind fun t ht => ?_
  have hwp : t.wp.toNat = s.wp.toNat + 1 := bitAdd_wp_toNat ht (by omega)
  have hnw : wordIndex (t.wp.toNat - 1) + 1 ≤ t.cfg.wcap.toNat := by
    rw [hwp, bitAdd_cfg ht]; simp only [wordIndex]; omega
  exact (copyWords_noFault (by rwa [bitAdd_cfg ht]) hnw).bind fun _ _ => noFault_ok _

/-- The size check and R5's `FCAP <= 4 * (WCAP - 1)` keep FROMARRAY inside both memories. -/
theorem execFromarray_answers {s : State} (hc : s.cfg.wf) (length : Word) :
    ∃ t status result, execFromarray length s = .next t ∧ t.Answers status result := by
  obtain ⟨-, -, hfcap, -⟩ := hc
  refine command_answers ((checkNotLive_noFault s).bind fun _ _ => (checkFrameSize_noFault s length).bind fun _ hl => ?_)
  have hl := checkFrameSize_eq_ok hl
  refine noFault_ite_throwExc fun h0 => ?_
  rw [memRead_ok (by omega), ok_bind]
  have hcapw : wordsFor length ≤ s.cfg.wcap.toNat := by simp only [wordsFor]; omega
  refine noFault_ite_throwExc fun _ => ?_
  exact NoFault.bind (loadFrame_noFault (by exact hl) (by exact hcapw)) fun _ _ => noFault_ok _

/-- From the invariant every command ends in a next state that carries a response: its checks keep it inside both memories. -/
theorem exec_answers {s : State} (hs : s.Inv) (i : Instr) :
    ∃ t status result, exec i s = .next t ∧ t.Answers status result := by
  obtain ⟨hc, hb, hg, -⟩ := hs
  cases i with
  | new capBytes ident => exact execNew_answers hc capBytes ident
  | rdcsr n => exact execRdcsr_answers n s
  | getlen => exact execGetlen_answers s
  | toarray dstLen => exact execToarray_answers hc hg dstLen
  | fromarray length => exact execFromarray_answers hc length
  | release | clear | isfin => exact command_checkLive_answers (noFault_ok _)
  | add n value => exact command_checkLive_answers (checkWidth_bind_noFault fun h1 _ => addField_noFault hg h1)
  | read n => exact command_checkLive_answers (checkWidth_bind_noFault (readField_noFault hb hg))
  | peek n => exact command_checkLive_answers (checkWidth_bind_noFault (peekField_noFault hb hg))
  | addbool | addbyte => exact command_checkLive_answers (addField_noFault hg (by omega))
  | readbool | readbyte => exact command_checkLive_answers (readField_noFault hb hg (by omega) (by omega))
  | peekbool | peekbyte => exact command_checkLive_answers (peekField_noFault hb hg (by omega) (by omega))
  | addshort | addushort | adduint | addint => exact command_answers (addVarint_noFault hc hg)
  | readshort | readushort | readuint | readint => exact command_answers (readVarint_noFault hb hg)
  | peekshort | peekushort | peekuint | peekint => exact command_answers (peekVarint_noFault hb hg)

theorem issue_answers {s : State} (hs : s.Inv) (w : CommandWord) :
    ∃ t status result, issue w s = .next t ∧ t.Answers status result := by
  cases hw : decode w with
  | ok i => rw [issue_of_decode_ok hw]; exact exec_answers hs i
  | error e => rw [issue_of_decode_error hw]; exact illegalCommand_answers s

/-! ## The statements -/

/-- Settles O53, by cases on the host's next move: a command answers (`issue_answers`), and of the other moves only a write at or above
FCAP stops the machine. -/
theorem onlyAHostWriteOutsideStops : Obligations.OnlyAHostWriteOutsideStops := by
  intro s hs
  match h : s.host with
  | [] => exact .inl ⟨s, step_idle h⟩
  | .command w :: rest =>
    obtain ⟨t, _, _, ht, -⟩ := issue_answers (s := { s with host := rest }) hs w
    exact .inl ⟨t, (step_command h).trans ht⟩
  | .reset :: rest => exact .inl ⟨_, step_reset h⟩
  | .writeFrame a b :: rest =>
    by_cases ha : a < s.cfg.fcap.toNat
    · exact .inl ⟨_, (step_writeFrame h).trans (hostWrite_inside (s := { s with host := rest }) ha b)⟩
    · have ha : s.cfg.fcap.toNat ≤ a := by omega
      exact .inr ⟨a, b, rest, rfl, ha, (step_writeFrame h).trans (hostWrite_outside (s := { s with host := rest }) ha b)⟩

/-- Settles O5, from the step's rule for a command and the rule for a word that decodes. -/
theorem stepRunsDecodedCommand : Obligations.StepRunsDecodedCommand := by
  intro s w rest i hhost hdec
  rw [step_command hhost, issue_of_decode_ok hdec]

/-- Settles O50: after reset the registers are zero and the memories list nothing, so R5's lower bound on WCAP is all the guard word
needs. -/
theorem resetMeetsTheInvariant : Obligations.ResetMeetsTheInvariant := by
  intro c hc
  have hguard : (State.resetWith c).GuardWordFits := by
    obtain ⟨hwcap, -⟩ := hc
    change 0 + 1 ≤ c.wcap.toNat; omega
  have hmem : (State.resetWith c).MemoriesWf := by
    obtain ⟨hw, hf⟩ := State.resetWith_memories_wf c
    exact ⟨hw, nofun, hf, nofun⟩
  have hwritten : (State.resetWith c).WrittenBelowWp := fun i hi => absurd hi (Nat.not_lt_zero i)
  exact ⟨hc, ⟨le_rfl, Nat.zero_le _⟩, hguard, fun _ => ⟨rfl, rfl, rfl⟩, nofun, hmem, hwritten⟩

end Sys2Proof.Machine

/-! SUPPORT. The state family (spec R12 to R26): what a command that succeeds leaves, why every step keeps the invariant, who writes which
memory, and why stale storage reaches no response. -/

namespace Sys2Proof.Machine

/-! ## How a command can end -/

/-- The engine with a new buffer of `capw` data words, both cursors at 0 (R52). -/
def State.acquire (s : State) (capw : Nat) : State :=
  { s with live := true, capw := BitVec.ofNat 32 capw, rp := 0, wp := 0 }

/-- What a command that succeeds can leave, but for the response: one constructor per kind of effect. -/
inductive Succeeds (i : Instr) (s : State) : State → Prop where
  /-- The peeks, GETLEN, ISFIN and RDCSR. -/
  | unchanged : Succeeds i s s
  /-- The reads: RP advances, at most to WP. -/
  | advance {p : Word} (hlive : s.live = true) (hlo : s.rp.toNat ≤ p.toNat) (hhi : p.toNat ≤ s.wp.toNat) :
      Succeeds i s { s with rp := p }
  /-- The fixed-width adds (R56). -/
  | field {n : Nat} {v : Word} {t : State} (hi : i.writesWords = true) (hlive : s.live = true) (hn : n ≤ 32)
      (hroom : s.wp.toNat + n ≤ 32 * s.capw.toNat) (h : bitAdd s n v = .ok t) : Succeeds i s t
  /-- The varint adds (R80). -/
  | groups {g : List Byte} {t : State} (hi : i.writesWords = true) (hlive : s.live = true)
      (hroom : s.wp.toNat + 8 * g.length ≤ 32 * s.capw.toNat) (h : bitAddBytes s g = .ok t) : Succeeds i s t
  | new {capBytes : Word} {ident : Half} {t : State} (hi : i = .new capBytes ident) (hlive : s.live = false)
      (hfits : wordsFor capBytes + 1 ≤ s.cfg.wcap.toNat) (hroom : 16 ≤ 32 * wordsFor capBytes)
      (h : bitAdd (s.acquire (wordsFor capBytes)) 16 (ident.setWidth 32) = .ok t) : Succeeds i s t
  | release (hi : i = .release) : Succeeds i s { s with live := false, rp := 0, wp := 0, capw := 0 }
  | clear (hi : i = .clear) : Succeeds i s { s with rp := 0, wp := 0 }
  | toarray {d : Word} {n : Nat} {t u : State} (hi : i = .toarray d) (hlive : s.live = true)
      (hroom : s.wp.toNat + 1 ≤ 32 * s.capw.toNat) (ht : bitAdd s 1 1 = .ok t) (h : copyWords t d.toNat n = .ok u) :
      Succeeds i s u
  | fromarray {l : Word} {last : Byte} {t : State} (hi : i = .fromarray l) (hlive : s.live = false)
      (hsize : l.toNat ≤ s.cfg.fcap.toNat) (hpos : l.toNat ≠ 0)
      (h : loadFrame { s with live := true, capw := BitVec.ofNat 32 (wordsFor l), rp := 0 } l.toNat (wordsFor l) = .ok t) :
      Succeeds i s { t with wp := BitVec.ofNat 32 ((l.toNat - 1) * 8 + (hsb last - 1)) }

section Ends

variable {i : Instr} {s t : State}

/-- The three ends of a command that answers a next state: Dead, an exception, or success (R51, R96, R100). -/
def Ends (i : Instr) (s t : State) : Prop :=
  (s.fatal = true ∧ t = respond s statusDead 0)
    ∨ (s.fatal = false ∧ ∃ e, t = raise s e)
    ∨ ∃ u r, Succeeds i s u ∧ t = respond u statusOk r

theorem command_ends {body : Except Stop (State × Word)} (h : command s body = .next t)
    (hbody : ∀ u r, body = .ok (u, r) → Succeeds i s u) : Ends i s t := by
  rcases command_next_cases h with hdead | ⟨-, u, r, hu, rfl⟩ | ⟨hf, e, -, rfl⟩
  · exact .inl hdead
  · exact .inr (.inr ⟨u, r, hbody u r hu, rfl⟩)
  · exact .inr (.inl ⟨hf, e, rfl⟩)

/-- `command_ends` for a command that needs a live buffer. -/
theorem command_checkLive_ends {body : Except Stop (State × Word)}
    (h : command s (checkLive s >>= fun _ => body) = .next t)
    (hbody : s.live = true → ∀ u r, body = .ok (u, r) → Succeeds i s u) : Ends i s t :=
  command_ends h fun u r hu => by
    obtain ⟨_, hl, hu⟩ := bind_eq_ok.1 hu
    exact hbody (checkLive_eq_ok hl) u r hu

/-- `if c then raise e` before the rest of an algorithm that succeeds: `c` fails and the rest succeeds. -/
theorem ite_throwExc_eq_ok {α : Type} {c : Prop} [Decidable c] {e : Exc} {x : Except Stop α} {a : α}
    (h : (if c then throwExc e else x) = .ok a) : ¬ c ∧ x = .ok a := by
  split at h
  · cases h
  · exact ⟨‹_›, h⟩

/-! ### Success, shape by shape -/

theorem succeeds_of_addField {n : Nat} {u : State} {v r : Word} (hi : i.writesWords = true) (hlive : s.live = true) (hn : n ≤ 32)
    (h : addField s n v = .ok (u, r)) : Succeeds i s u := by
  obtain ⟨hroom, hu, -⟩ := addField_eq_ok h
  exact .field hi hlive hn hroom hu

theorem succeeds_of_readField {n : Nat} {u : State} {r : Word} (hlive : s.live = true) (h : readField s n = .ok (u, r)) :
    Succeeds i s u := by
  obtain ⟨havail, -, rfl⟩ := readField_eq_ok h
  have hrp : (s.rp + BitVec.ofNat 32 n).toNat = s.rp.toNat + n := by
    simp only [BitVec.toNat_add, BitVec.toNat_ofNat]; omega
  exact .advance hlive (by omega) (by omega)

theorem succeeds_of_peekField {n : Nat} {u : State} {r : Word} (h : peekField s n = .ok (u, r)) : Succeeds i s u := by
  obtain ⟨-, -, rfl⟩ := peekField_eq_ok h
  exact .unchanged

theorem succeeds_of_addVarint {u : State} {v r : Word} (hi : i.writesWords = true) (h : addVarint s v = .ok (u, r)) :
    Succeeds i s u := by
  obtain ⟨hlive, hroom, hu, -⟩ := addVarint_eq_ok h
  exact .groups hi hlive hroom hu

theorem succeeds_of_readVarint {f : Word → Word} {u : State} {r : Word} (h : readVarint s f = .ok (u, r)) : Succeeds i s u := by
  obtain ⟨hlive, c, pos, hscan, rfl, -⟩ := readVarint_eq_ok h
  obtain ⟨hlo, -, hhi⟩ := varintScanFrom_eq_ok hscan
  have hpos : (BitVec.ofNat 32 pos).toNat = pos := by
    rw [BitVec.toNat_ofNat]; omega
  exact .advance hlive (by omega) (by omega)

theorem succeeds_of_peekVarint {f : Word → Word} {u : State} {r : Word} (h : peekVarint s f = .ok (u, r)) : Succeeds i s u := by
  obtain ⟨-, rfl, -⟩ := peekVarint_eq_ok h
  exact .unchanged

/-- The raw commands of R58 to R60: the rest of the algorithm runs at a width from 1 to 32. -/
theorem checkWidth_bind_eq_ok {n : Byte} {x : Except Stop (State × Word)} {p : State × Word}
    (h : (checkWidth n >>= fun _ => x) = .ok p) : n.toNat ≤ 32 ∧ x = .ok p := by
  obtain ⟨_, hw, hx⟩ := bind_eq_ok.1 h
  exact ⟨(checkWidth_eq_ok hw).2, hx⟩

/-! ### The commands with a shape of their own -/

theorem execNew_ends {capBytes : Word} {ident : Half} (h : execNew capBytes ident s = .next t) :
    Ends (.new capBytes ident) s t :=
  command_ends h fun u r hu => by
    obtain ⟨_, hlive, hu⟩ := bind_eq_ok.1 hu
    obtain ⟨hfits, hu⟩ := ite_throwExc_eq_ok hu
    obtain ⟨hroom, hu⟩ := ite_throwExc_eq_ok hu
    obtain ⟨v, hv, hu⟩ := bind_eq_ok.1 hu
    cases hu
    exact .new rfl (checkNotLive_eq_ok hlive) (by omega) (by omega) hv

theorem execGetlen_ends (h : execGetlen s = .next t) : Ends i s t :=
  command_checkLive_ends h fun _ u r hu => by
    obtain ⟨-, hu⟩ := ite_throwExc_eq_ok hu
    cases hu
    exact .unchanged

theorem execRdcsr_ends {n : Byte} (h : execRdcsr n s = .next t) : Ends i s t := by
  unfold execRdcsr at h
  split at h
  · cases h; exact .inr (.inr ⟨s, _, .unchanged, rfl⟩)
  · exact command_ends h nofun

theorem execToarray_ends {d : Word} (h : execToarray d s = .next t) : Ends (.toarray d) s t :=
  command_checkLive_ends h fun hlive u r hu => by
    obtain ⟨_, -, hu⟩ := bind_eq_ok.1 hu
    obtain ⟨_, hroom, hu⟩ := bind_eq_ok.1 hu
    obtain ⟨v, hv, hu⟩ := bind_eq_ok.1 hu
    obtain ⟨w, hw, hu⟩ := bind_eq_ok.1 hu
    cases hu
    exact .toarray rfl hlive (checkRoom_eq_ok hroom) hv hw

theorem execFromarray_ends {l : Word} (h : execFromarray l s = .next t) : Ends (.fromarray l) s t :=
  command_ends h fun u r hu => by
    obtain ⟨_, hlive, hu⟩ := bind_eq_ok.1 hu
    obtain ⟨_, hsize, hu⟩ := bind_eq_ok.1 hu
    obtain ⟨hpos, hu⟩ := ite_throwExc_eq_ok hu
    obtain ⟨last, -, hu⟩ := bind_eq_ok.1 hu
    obtain ⟨-, hu⟩ := ite_throwExc_eq_ok hu
    obtain ⟨v, hv, hu⟩ := bind_eq_ok.1 hu
    cases hu
    exact .fromarray rfl (checkNotLive_eq_ok hlive) (checkFrameSize_eq_ok hsize) hpos hv

/-- Everything a command can do when it answers a next state. -/
theorem exec_ends (h : exec i s = .next t) : Ends i s t := by
  cases i with
  | new capBytes ident => exact execNew_ends h
  | rdcsr n => exact execRdcsr_ends h
  | getlen => exact execGetlen_ends h
  | toarray d => exact execToarray_ends h
  | fromarray l => exact execFromarray_ends h
  | release => exact command_checkLive_ends h fun _ u r hu => by cases hu; exact .release rfl
  | clear => exact command_checkLive_ends h fun _ u r hu => by cases hu; exact .clear rfl
  | isfin => exact command_checkLive_ends h fun _ u r hu => by cases hu; exact .unchanged
  | add n v =>
    exact command_checkLive_ends h fun hlive u r hu =>
      have ⟨hn, hu⟩ := checkWidth_bind_eq_ok hu
      succeeds_of_addField rfl hlive hn hu
  | read n => exact command_checkLive_ends h fun hlive u r hu => succeeds_of_readField hlive (checkWidth_bind_eq_ok hu).2
  | peek n => exact command_checkLive_ends h fun _ u r hu => succeeds_of_peekField (checkWidth_bind_eq_ok hu).2
  | addbool | addbyte => exact command_checkLive_ends h fun hlive u r hu => succeeds_of_addField rfl hlive (by omega) hu
  | readbool | readbyte => exact command_checkLive_ends h fun hlive u r hu => succeeds_of_readField hlive hu
  | peekbool | peekbyte => exact command_checkLive_ends h fun _ u r hu => succeeds_of_peekField hu
  | addshort | addushort | adduint | addint => exact command_ends h fun u r hu => succeeds_of_addVarint rfl hu
  | readshort | readushort | readuint | readint => exact command_ends h fun u r hu => succeeds_of_readVarint hu
  | peekshort | peekushort | peekuint | peekint => exact command_ends h fun u r hu => succeeds_of_peekVarint hu

end Ends

/-! ## What `BitAdd` leaves -/

/-- `BitAdd` changes the word memory and moves the write cursor (R56). -/
theorem bitAdd_eq {s t : State} {n : Nat} {v : Word} (h : bitAdd s n v = .ok t) :
    t = { s with words := t.words, wp := s.wp + BitVec.ofNat 32 n } := (bitAdd_eq_ok h).2.1

theorem bitAdd_rp {s t : State} {n : Nat} {v : Word} (h : bitAdd s n v = .ok t) : t.rp = s.rp := by
  rw [bitAdd_eq h]

theorem bitAdd_live {s t : State} {n : Nat} {v : Word} (h : bitAdd s n v = .ok t) : t.live = s.live := by
  rw [bitAdd_eq h]

/-! ## Who writes which memory -/

/-- A command that succeeds keeps the parameters and the host's moves, and each memory it is no writer of (R17, R20). -/
theorem Succeeds.frame_rule {i : Instr} {s u : State} (h : Succeeds i s u) :
    u.cfg = s.cfg ∧ u.host = s.host ∧ (i.writesFrame = false → u.frame = s.frame) ∧ (i.writesWords = false → u.words = s.words) := by
  cases h with
  | unchanged | advance | release | clear => exact ⟨rfl, rfl, fun _ => rfl, fun _ => rfl⟩
  | field hi _ _ _ h =>
    rw [bitAdd_eq h]
    exact ⟨rfl, rfl, fun _ => rfl, by simp [hi]⟩
  | groups hi _ _ h =>
    rw [bitAddBytes_eq_ok h]
    exact ⟨rfl, rfl, fun _ => rfl, by simp [hi]⟩
  | new hi _ _ _ h =>
    rw [bitAdd_eq h]
    exact ⟨rfl, rfl, fun _ => rfl, by simp [hi, Instr.writesWords]⟩
  | toarray hi _ _ ht h =>
    rw [copyWords_eq_ok h, bitAdd_eq ht]
    exact ⟨rfl, rfl, by simp [hi, Instr.writesFrame], by simp [hi, Instr.writesWords]⟩
  | fromarray hi _ _ _ h =>
    rw [loadFrame_eq_ok h]
    exact ⟨rfl, rfl, fun _ => rfl, by simp [hi, Instr.writesWords]⟩

/-- Settles O54, by the three ends of a command: Dead and an exception write neither memory, a success obeys the frame rule. -/
theorem memoriesChangeOnlyByTheirWriters : Obligations.MemoriesChangeOnlyByTheirWriters := by
  intro i s t h
  rcases exec_ends h with ⟨-, rfl⟩ | ⟨-, e, rfl⟩ | ⟨u, r, hu, rfl⟩
  · exact ⟨rfl, rfl, fun _ => rfl, fun _ => rfl⟩
  · exact ⟨rfl, rfl, fun _ => rfl, fun _ => rfl⟩
  · exact hu.frame_rule

/-! ## The cursors -/

/-- Appending groups moves the write cursor by 8 bits a group. -/
theorem bitAddBytes_wp_toNat {g : List Byte} {s t : State} (h : bitAddBytes s g = .ok t) (hlt : s.wp.toNat + 8 * g.length < 2 ^ 32) :
    t.wp.toNat = s.wp.toNat + 8 * g.length := by
  induction g generalizing s with
  | nil => cases h; rfl
  | cons b g ih =>
    rw [List.length_cons] at hlt ⊢
    obtain ⟨u, hu, h⟩ := bind_eq_ok.1 h
    have hwp : u.wp.toNat = s.wp.toNat + 8 := bitAdd_wp_toNat hu (by omega)
    rw [ih h (by omega)]
    omega

/-- Settles O55: a command that succeeds on a live buffer and is not RELEASE or CLEAR moves RP up to WP at most, or moves WP by the bits it
had room for, which R5 keeps below `2^32`. -/
theorem cursorsOnlyIncrease : Obligations.CursorsOnlyIncrease := by
  intro i s t hs hlive hclear hrelease h
  obtain ⟨hc, -, hg, -⟩ := hs
  have hbits := bits_lt_of_guardWordFits hc hg
  rcases exec_ends h with ⟨-, rfl⟩ | ⟨-, e, rfl⟩ | ⟨u, r, hu, rfl⟩
  · exact ⟨le_rfl, le_rfl⟩
  · exact ⟨le_rfl, le_rfl⟩
  rw [respond_wp, respond_rp]
  cases hu with
  | unchanged => exact ⟨le_rfl, le_rfl⟩
  | advance _ hlo => exact ⟨le_rfl, hlo⟩
  | field _ _ _ hroom h =>
    have hwp := bitAdd_wp_toNat h (by omega)
    exact ⟨by omega, by rw [bitAdd_rp h]⟩
  | groups _ _ hroom h =>
    have hwp := bitAddBytes_wp_toNat h (by omega)
    have hrp : u.rp = s.rp := by rw [bitAddBytes_eq_ok h]
    exact ⟨by omega, by rw [hrp]⟩
  | toarray _ _ hroom ht h =>
    have hwp := bitAdd_wp_toNat ht (by omega)
    rw [copyWords_eq_ok h]
    exact ⟨(Nat.le_add_right _ 1).trans hwp.ge, (congrArg BitVec.toNat (bitAdd_rp ht)).ge⟩
  | release hi => exact absurd hi hrelease
  | clear hi => exact absurd hi hclear
  | new _ hnot | fromarray _ hnot => simp [hlive] at hnot

/-! ## What keeps the invariant -/

section Inv

variable {s t : State}

theorem State.Inv.cfg_wf (hs : s.Inv) : s.cfg.wf := hs.1

theorem State.Inv.cursorsInBounds (hs : s.Inv) : s.CursorsInBounds := hs.2.1

theorem State.Inv.guardWordFits (hs : s.Inv) : s.GuardWordFits := hs.2.2.1

theorem State.Inv.bits_lt (hs : s.Inv) : 32 * s.capw.toNat < 2 ^ 32 := bits_lt_of_guardWordFits hs.cfg_wf hs.guardWordFits

theorem State.Inv.respond (hs : s.Inv) (st : Byte) (r : Word) : (respond s st r).Inv := hs

/-- R97: the fatal class is the codes from 0x80 up. -/
theorem Exc.code_of_isFatal {e : Exc} (h : e.isFatal = true) : 0x80 ≤ e.code.toNat := by
  cases e with
  | varintTooLong | badFrame | readOverrun | lengthUndefined => cases h
  | notLive | badWidth | alreadyLive | capacityExceeded | illegalCommand | resourceLimit => decide

/-- An exception raised in an engine that is not dead keeps the invariant (R96, R22 (d)). -/
theorem State.Inv.raise (hs : s.Inv) (hf : s.fatal = false) (e : Exc) : (raise s e).Inv := by
  obtain ⟨hc, hb, hg, he, -, hm, hw⟩ := hs
  have hfatal : (Machine.raise s e).FatalHasCause := fun h => Exc.code_of_isFatal (by simpa [hf] using h)
  exact ⟨hc, hb, hg, he, hfatal, hm, hw⟩

theorem State.Inv.writeWord (hs : s.Inv) {a : Nat} (ha : a < s.cfg.wcap.toNat) (v : Word) :
    ({ s with words := Memory.write s.words a v } : State).Inv := by
  obtain ⟨hc, hb, hg, he, hf, ⟨hwf, hbelow, hframe⟩, hw⟩ := hs
  refine ⟨hc, hb, hg, he, hf, ⟨Memory.wf_write a v hwf, Memory.below_write v ha hbelow, hframe⟩, fun j hj hbit => ?_⟩
  rw [Memory.read_write]
  split
  · rfl
  · exact hw j hj hbit

theorem State.Inv.writeFrame (hs : s.Inv) {a : Nat} (ha : a < s.cfg.fcap.toNat) (b : Byte) :
    ({ s with frame := Memory.write s.frame a b } : State).Inv := by
  obtain ⟨hc, hb, hg, he, hf, ⟨hwf, hbelow, hfwf, hfbelow⟩, hw⟩ := hs
  exact ⟨hc, hb, hg, he, hf, ⟨hwf, hbelow, Memory.wf_write a b hfwf, Memory.below_write b ha hfbelow⟩, hw⟩

/-- RP may stand anywhere up to WP. -/
theorem State.Inv.setRp (hs : s.Inv) (hlive : s.live = true) {p : Word} (hp : p.toNat ≤ s.wp.toNat) :
    ({ s with rp := p } : State).Inv := by
  obtain ⟨hc, ⟨-, hwp⟩, hg, -, hrest⟩ := hs
  exact ⟨hc, ⟨hp, hwp⟩, hg, fun h => by simp [hlive] at h, hrest⟩

/-- WP may stand anywhere from RP to the buffer's end, once every word below it has been written. -/
theorem State.Inv.setWp (hs : s.Inv) (hlive : s.live = true) {p : Word} (hlo : s.rp.toNat ≤ p.toNat)
    (hhi : p.toNat ≤ 32 * s.capw.toNat) (hwritten : ∀ j, 32 * j < p.toNat → (Memory.read s.words j).isSome = true) :
    ({ s with wp := p } : State).Inv := by
  obtain ⟨hc, -, hg, -, hf, hm, -⟩ := hs
  exact ⟨hc, ⟨hlo, hhi⟩, hg, fun h => by simp [hlive] at h, hf, hm, fun j _ hj => hwritten j hj⟩

/-- A new buffer with no bit in it keeps the invariant when the guard word fits (R52, R22 (b)). -/
theorem State.Inv.acquire (hs : s.Inv) {capw : Nat} (hfits : capw + 1 ≤ s.cfg.wcap.toNat) : (s.acquire capw).Inv := by
  obtain ⟨hc, -, -, -, hf, hm, -⟩ := hs
  have hguard : (s.acquire capw).GuardWordFits := (Nat.succ_le_succ (Nat.mod_le _ _)).trans hfits
  exact ⟨hc, ⟨le_rfl, Nat.zero_le _⟩, hguard, nofun, hf, hm, fun j _ hj => absurd hj (Nat.not_lt_zero _)⟩

/-- The engine with no buffer and both cursors at 0 (R53). -/
theorem State.Inv.release (hs : s.Inv) : ({ s with live := false, rp := 0, wp := 0, capw := 0 } : State).Inv := by
  obtain ⟨hc, -, -, -, hf, hm, -⟩ := hs
  have hguard : 0 + 1 ≤ s.cfg.wcap.toNat := Nat.le_of_succ_le hc.1
  exact ⟨hc, ⟨le_rfl, Nat.zero_le _⟩, hguard, fun _ => ⟨rfl, rfl, rfl⟩, hf, hm, fun j hj => absurd hj (Nat.not_lt_zero _)⟩

theorem State.Inv.clear (hs : s.Inv) : ({ s with rp := 0, wp := 0 } : State).Inv := by
  obtain ⟨hc, -, hg, he, hf, hm, -⟩ := hs
  exact ⟨hc, ⟨le_rfl, Nat.zero_le _⟩, hg, fun h => ⟨rfl, rfl, (he h).2.2⟩, hf, hm, fun j _ hj => absurd hj (Nat.not_lt_zero _)⟩

theorem State.Inv.applyReset (hs : s.Inv) : (applyReset s).Inv := by
  obtain ⟨hc, hb, hg, he, -, hrest⟩ := hs.release
  exact ⟨hc, hb, hg, he, nofun, hrest⟩

/-! ### The loops -/

/-- `BitAdd` writes the two words its field can touch, so every word below the new cursor has been written (R23). -/
theorem State.Inv.bitAdd (hs : s.Inv) (hlive : s.live = true) {n : Nat} {v : Word} (hn : n ≤ 32)
    (hroom : s.wp.toNat + n ≤ 32 * s.capw.toNat) (h : bitAdd s n v = .ok t) : t.Inv := by
  have hbits := hs.bits_lt
  obtain ⟨-, ⟨hrp, -⟩, -, -, -, -, hwritten⟩ := id hs
  have hwp := bitAdd_wp_toNat h (by omega)
  obtain ⟨hlast, -, -⟩ := bitAdd_eq_ok h
  rw [bitAdd_ok hlast] at h
  cases h
  refine ((hs.writeWord (Nat.lt_of_succ_lt hlast) _).writeWord hlast _).setWp hlive ?_ ?_ fun j hj => ?_
  all_goals dsimp only at hwp ⊢
  · omega
  · omega
  · simp only [Memory.read_write]
    split
    · rfl
    split
    · rfl
    · simp only [wordIndex] at *
      exact hwritten j (by omega) (by omega)

theorem State.Inv.bitAddBytes {g : List Byte} (hs : s.Inv) (hlive : s.live = true)
    (hroom : s.wp.toNat + 8 * g.length ≤ 32 * s.capw.toNat) (h : bitAddBytes s g = .ok t) : t.Inv := by
  induction g generalizing s with
  | nil => cases h; exact hs
  | cons b g ih =>
    rw [List.length_cons] at hroom
    have hbits := hs.bits_lt
    obtain ⟨u, hu, h⟩ := bind_eq_ok.1 h
    have hwp := bitAdd_wp_toNat hu (by omega)
    have huinv := hs.bitAdd hlive (by omega) (by omega) hu
    exact ih huinv (by rwa [bitAdd_live hu]) (by rw [bitAdd_capw hu]; omega) h

theorem State.Inv.copyBytes {dstLen i k : Nat} {w : Word} (hs : s.Inv) (h : copyBytes s dstLen i w k = .ok t) : t.Inv := by
  induction k generalizing t with
  | zero => cases h; exact hs
  | succ k ih =>
    obtain ⟨u, hu, h⟩ := bind_eq_ok.1 h
    split at h
    · obtain ⟨ha, rfl⟩ := memWrite_eq_ok h
      exact (ih hu).writeFrame ha _
    · cases h; exact ih hu

theorem State.Inv.copyWords {dstLen n : Nat} (hs : s.Inv) (h : copyWords s dstLen n = .ok t) : t.Inv := by
  induction n generalizing t with
  | zero => cases h; exact hs
  | succ n ih =>
    obtain ⟨u, hu, h⟩ := bind_eq_ok.1 h
    obtain ⟨w, -, h⟩ := bind_eq_ok.1 h
    exact (ih hu).copyBytes h

theorem State.Inv.loadFrame {length n : Nat} (hs : s.Inv) (h : loadFrame s length n = .ok t) : t.Inv := by
  induction n generalizing t with
  | zero => cases h; exact hs
  | succ n ih =>
    obtain ⟨u, hu, h⟩ := bind_eq_ok.1 h
    obtain ⟨w, -, h⟩ := bind_eq_ok.1 h
    obtain ⟨ha, rfl⟩ := storeWord_eq_ok h
    exact (ih hu).writeWord ha w

/-- Rebuilding the words writes every one of them (R93). -/
theorem loadFrame_written {length n : Nat} (h : loadFrame s length n = .ok t) : ∀ j < n, (Memory.read t.words j).isSome = true := by
  induction n generalizing t with
  | zero => exact nofun
  | succ n ih =>
    obtain ⟨u, hu, h⟩ := bind_eq_ok.1 h
    obtain ⟨w, -, h⟩ := bind_eq_ok.1 h
    obtain ⟨-, rfl⟩ := storeWord_eq_ok h
    intro j hj
    rw [Memory.read_write]
    split
    · rfl
    · exact ih hu j (by omega)

/-! ### The commands -/

theorem wordsFor_toNat (bytes : Word) : (BitVec.ofNat 32 (wordsFor bytes)).toNat = wordsFor bytes := by
  have hbytes := bytes.isLt
  rw [BitVec.toNat_ofNat, Nat.mod_eq_of_lt]
  simp only [wordsFor]; omega

/-- A released engine's cursor is 0 already, so FROMARRAY starts from the same acquired buffer as NEW. -/
theorem State.Inv.acquire_of_not_live (hs : s.Inv) (hlive : s.live = false) (capw : Nat) :
    ({ s with live := true, capw := BitVec.ofNat 32 capw, rp := 0 } : State) = s.acquire capw := by
  obtain ⟨-, -, -, he, -⟩ := hs
  simp [State.acquire, (he hlive).2.1]

/-- FROMARRAY's buffer: all its words are written, and WP stands inside the last byte (R93). -/
theorem State.Inv.fromarray (hs : s.Inv) {l : Word} {last : Byte} (hsize : l.toNat ≤ s.cfg.fcap.toNat) (hpos : l.toNat ≠ 0)
    (h : Machine.loadFrame (s.acquire (wordsFor l)) l.toNat (wordsFor l) = .ok t) :
    ({ t with wp := BitVec.ofNat 32 ((l.toNat - 1) * 8 + (hsb last - 1)) } : State).Inv := by
  obtain ⟨-, -, hfcap, -⟩ := hs.cfg_wf
  have hwords : 4 * wordsFor l < l.toNat + 4 ∧ l.toNat ≤ 4 * wordsFor l := by simp only [wordsFor]; omega
  have hlast : hsb last ≤ 8 := hsbFrom_le last 8
  have ht := loadFrame_eq_ok h
  have hcapw : t.capw.toNat = wordsFor l := by rw [ht]; exact wordsFor_toNat l
  have hwp : (BitVec.ofNat 32 ((l.toNat - 1) * 8 + (hsb last - 1))).toNat ≤ (l.toNat - 1) * 8 + 7 :=
    (Nat.mod_le _ _).trans (by omega)
  have hinv := (hs.acquire (capw := wordsFor l) (by omega)).loadFrame h
  refine hinv.setWp (by rw [ht]; rfl) (by rw [ht]; exact Nat.zero_le _) (by omega) fun j hj => ?_
  exact loadFrame_written h j (by omega)

theorem Succeeds.inv {i : Instr} (hs : s.Inv) (h : Succeeds i s t) : t.Inv := by
  cases h with
  | unchanged => exact hs
  | advance hlive _ hhi => exact hs.setRp hlive hhi
  | field _ hlive hn hroom h => exact hs.bitAdd hlive hn hroom h
  | groups _ hlive hroom h => exact hs.bitAddBytes hlive hroom h
  | @new capBytes _ _ _ _ hfits hroom h =>
    have hcapw := wordsFor_toNat capBytes
    exact (hs.acquire hfits).bitAdd rfl (by omega) (by change 0 + 16 ≤ 32 * (BitVec.ofNat 32 _).toNat; omega) h
  | release => exact hs.release
  | clear => exact hs.clear
  | toarray _ hlive hroom ht h => exact (hs.bitAdd hlive (by omega) hroom ht).copyWords h
  | fromarray _ hlive hsize hpos h =>
    rw [hs.acquire_of_not_live hlive] at h
    exact hs.fromarray hsize hpos h

/-- Every end of a command keeps the invariant. -/
theorem Ends.inv {i : Instr} (hs : s.Inv) (h : Ends i s t) : t.Inv := by
  rcases h with ⟨-, rfl⟩ | ⟨hf, e, rfl⟩ | ⟨u, r, hu, rfl⟩
  · exact hs.respond _ _
  · exact hs.raise hf e
  · exact (hu.inv hs).respond _ _

theorem issue_inv {w : CommandWord} (hs : s.Inv) (h : issue w s = .next t) : t.Inv := by
  cases hw : decode w with
  | ok i => rw [issue_of_decode_ok hw] at h; exact (exec_ends h).inv hs
  | error e =>
    rw [issue_of_decode_error hw] at h
    exact (command_ends (i := .rdcsr 0) h nofun).inv hs

end Inv

/-- Settles O51, by cases on the host's next move: a command keeps the invariant whichever way it ends, a host write that answers is inside
the frame memory, and reset empties the engine. -/
theorem stepKeepsTheInvariant : Obligations.StepKeepsTheInvariant := by
  intro s t hs h
  match hh : s.host with
  | [] => rw [step_idle hh] at h; cases h; exact hs
  | .command w :: rest =>
    rw [step_command hh] at h
    exact issue_inv (s := { s with host := rest }) hs h
  | .writeFrame a b :: rest =>
    rw [step_writeFrame hh] at h
    obtain ⟨ha, rfl⟩ := hostWrite_next h
    exact State.Inv.writeFrame (s := { s with host := rest }) hs ha b
  | .reset :: rest =>
    rw [step_reset hh] at h
    cases h
    exact State.Inv.applyReset (s := { s with host := rest }) hs

/-! ## The host's write and RDCSR -/

/-- Settles O7, from the step's rule for each move and the frame memory's read after write. -/
theorem idleStepAndHostWrite : Obligations.IdleStepAndHostWrite := by
  refine ⟨fun s => step_idle, fun s a b rest hhost ha => ?_, fun s a b rest hhost ha => ?_⟩
  · have hread := frameByte_write { s with host := rest } a b
    exact ⟨_, (step_writeFrame hhost).trans (hostWrite_inside (s := { s with host := rest }) ha b), rfl,
      (hread a).trans (if_pos rfl), fun c hc => (hread c).trans (if_neg hc)⟩
  · exact (step_writeFrame hhost).trans (hostWrite_outside (s := { s with host := rest }) ha b)

theorem exec_rdcsr_of_some {s : State} {n : Byte} {v : Word} (h : csrValue s n = some v) :
    exec (.rdcsr n) s = .next (respond s statusOk v) := by
  simp [exec, execRdcsr, h]

theorem exec_rdcsr_of_none {s : State} {n : Byte} (h : csrValue s n = none) : exec (.rdcsr n) s = illegalCommand s := by
  simp [exec, execRdcsr, h]

/-- There is no CSR above number 6 (R12). -/
theorem csrValue_of_gt {n : Byte} (s : State) (h : 6 < n.toNat) : csrValue s n = none := by
  unfold csrValue
  split
  case h_8 => rfl
  all_goals simp at h

/-- STATUS is `LIVE + 2 * FATAL` (R12). -/
theorem statusWord_toNat (s : State) : (statusWord s).toNat = s.live.toNat + 2 * s.fatal.toNat := by
  unfold statusWord
  cases s.fatal <;> cases s.live <;> rfl

theorem causeWord_toNat (s : State) : (causeWord s).toNat = s.cause.toNat := by
  unfold causeWord
  rw [BitVec.toNat_setWidth]
  omega

theorem illegalCommand_eq (s : State) :
    illegalCommand s = .next (if s.fatal then respond s statusDead 0 else raise s .illegalCommand) := by
  unfold illegalCommand command
  split <;> rfl

/-- Settles O24: a CSR that exists is answered in every state, one that does not is an illegal command. -/
theorem rdcsrReadsTheRegisters : Obligations.RdcsrReadsTheRegisters := by
  refine ⟨fun s => ⟨?_, ?_, ?_, ?_, ?_, ?_, ?_⟩, fun s n hn => ?_⟩
  · exact exec_rdcsr_of_some rfl
  · exact exec_rdcsr_of_some rfl
  · exact exec_rdcsr_of_some rfl
  · exact ⟨_, statusWord_toNat s, exec_rdcsr_of_some rfl⟩
  · exact ⟨_, causeWord_toNat s, exec_rdcsr_of_some rfl⟩
  · exact exec_rdcsr_of_some rfl
  · exact exec_rdcsr_of_some rfl
  · rw [exec_rdcsr_of_none (csrValue_of_gt s hn), illegalCommand_eq]
    cases hf : s.fatal <;> simp [respond, raise, hf, Exc.code, Exc.isFatal, statusDead]

/-! ## Two runs side by side -/

/-- Two algorithms end alike: both succeed, with values that `R` relates, or both stop for the same reason. -/
inductive Alike {α β : Type} (R : α → β → Prop) : Except Stop α → Except Stop β → Prop where
  | ok {a : α} {b : β} (h : R a b) : Alike R (.ok a) (.ok b)
  | error (e : Stop) : Alike R (.error e) (.error e)

section Alike

variable {α β γ δ : Type} {R : α → β → Prop} {S : γ → δ → Prop}

theorem Alike.bind {x : Except Stop α} {y : Except Stop β} {f : α → Except Stop γ} {g : β → Except Stop δ} (hxy : Alike R x y)
    (hfg : ∀ a b, x = .ok a → y = .ok b → R a b → Alike S (f a) (g b)) : Alike S (x >>= f) (y >>= g) := by
  cases hxy with
  | ok h => exact hfg _ _ rfl rfl h
  | error e => exact .error e

/-- Both runs begin with the same algorithm. -/
theorem Alike.same_bind {x : Except Stop α} {f : α → Except Stop γ} {g : α → Except Stop δ}
    (hfg : ∀ a, x = .ok a → Alike S (f a) (g a)) : Alike S (x >>= f) (x >>= g) := by
  cases x with
  | ok a => exact hfg a rfl
  | error e => exact .error e

/-- Both runs begin with the same `if c then raise e`. -/
theorem Alike.ite_throwExc {c : Prop} [Decidable c] {e : Exc} {x : Except Stop α} {y : Except Stop β} (hxy : ¬ c → Alike R x y) :
    Alike R (if c then throwExc e else x) (if c then throwExc e else y) := by
  split
  · exact .error _
  · exact hxy ‹_›

end Alike

/-- Two algorithms that end alike with the same result, in states that differ in stale storage only. -/
abbrev AlikeBelowWp : Except Stop (State × Word) → Except Stop (State × Word) → Prop :=
  Alike fun p q => p.1.AgreeBelowWp q.1 ∧ p.2 = q.2

section Agree

variable {s t : State}

theorem State.AgreeBelowWp.exists_words (hst : s.AgreeBelowWp t) : ∃ w, t = { s with words := w } := ⟨_, hst.1⟩

/-- The template of R51 answers alike when the algorithms end alike. -/
theorem command_agree {s' : State} {x y : Except Stop (State × Word)} (hst : s.AgreeBelowWp t) (hxy : AlikeBelowWp x y)
    (h : command s x = .next s') : ∃ t', command t y = .next t' ∧ s'.AgreeBelowWp t' := by
  obtain ⟨ht, hbits⟩ := hst
  have hfatal : t.fatal = s.fatal := by rw [ht]
  rcases command_next_cases h with ⟨hf, rfl⟩ | ⟨hf, u, r, rfl, rfl⟩ | ⟨hf, e, rfl, rfl⟩
  · exact ⟨_, command_dead (hfatal.trans hf) y, by rw [ht]; rfl, hbits⟩
  · cases hxy with
    | @ok _ q hq =>
      obtain ⟨v, r'⟩ := q
      obtain ⟨⟨hv, hvbits⟩, rfl⟩ := hq
      exact ⟨_, command_alive (hfatal.trans hf) _, by dsimp only at hv; rw [hv]; rfl, hvbits⟩
  · cases hxy
    exact ⟨_, command_alive (hfatal.trans hf) _, by rw [ht]; rfl, hbits⟩

/-- States with the same registers and the same first `n` words. -/
def AgreeWords (n : Nat) (s t : State) : Prop := t = { s with words := t.words } ∧ ∀ i < n, s.word i = t.word i

theorem AgreeWords.agreeBelowWp {n : Nat} (h : AgreeWords n s t) (hwp : s.wp.toNat ≤ 32 * n) : s.AgreeBelowWp t := by
  obtain ⟨ht, hwords⟩ := h
  refine ⟨ht, fun p hp => ?_⟩
  rw [State.bit, State.bit, hwords _ (by simp only [wordIndex]; omega)]

/-! ### The bit datapath -/

/-- A fetch below WP answers alike (R57). -/
theorem bitFetch_agree (hst : s.AgreeBelowWp t) (hb : s.CursorsInBounds) (hg : s.GuardWordFits) {pos n : Nat} (hn1 : 1 ≤ n)
    (hn : n ≤ 32) (hend : pos + n ≤ s.wp.toNat) : bitFetch t pos n = bitFetch s pos n := by
  obtain ⟨ht, hbits⟩ := hst
  have hgt : t.capw.toNat + 1 ≤ t.cfg.wcap.toNat := by rw [ht]; exact hg
  have hendt : pos + n ≤ 32 * t.capw.toNat := by rw [ht]; exact hend.trans hb.2
  obtain ⟨r, hr, hrbits⟩ := bitFetch_ok hn1 hn (hend.trans hb.2) hg
  obtain ⟨r', hr', hrbits'⟩ := bitFetch_ok hn1 hn hendt hgt
  have heq : r' = r := by
    apply BitVec.eq_of_getLsbD_eq
    intro k _
    rw [hrbits, hrbits']
    by_cases hk : k < n
    · rw [hbits _ (by omega)]
    · simp [hk]
  rw [hr, hr', heq]

/-- After `BitAdd` on both sides the two states agree in every bit of the words up to the last one written, stale ones too: the rest of
both words is zero (R56, R64 (c)). -/
theorem bitAdd_bit_agree {u v : State} (hst : s.AgreeBelowWp t) {n : Nat} {x : Word} (hn : n ≤ 32) (hu : bitAdd s n x = .ok u)
    (hv : bitAdd t n x = .ok v) {p : Nat} (hp : wordIndex p ≤ wordIndex s.wp.toNat + 1) : u.bit p = v.bit p := by
  obtain ⟨ht, hbits⟩ := hst
  have hwp : t.wp = s.wp := by rw [ht]
  rw [bitAdd_bit hn hu, bitAdd_bit hn hv, hwp]
  by_cases hlt : p < s.wp.toNat
  · rw [hbits p hlt]
  · have hin : wordIndex p = wordIndex s.wp.toNat ∨ wordIndex p = wordIndex s.wp.toNat + 1 := by
      simp only [wordIndex] at *; omega
    rw [if_pos hin, if_pos hin, if_neg hlt, if_neg hlt]

/-- So the words up to the last one written agree whole. -/
theorem bitAdd_agreeWords {u v : State} (hst : s.AgreeBelowWp t) {n : Nat} {x : Word} (hn : n ≤ 32) (hu : bitAdd s n x = .ok u)
    (hv : bitAdd t n x = .ok v) : AgreeWords (wordIndex s.wp.toNat + 2) u v := by
  refine ⟨by rw [bitAdd_eq hv, bitAdd_eq hu, hst.1], fun i hi => ?_⟩
  apply BitVec.eq_of_getLsbD_eq
  intro k hk
  have hidx : wordIndex (32 * i + k) = i := by simp only [wordIndex]; omega
  have hoff : bitOffset (32 * i + k) = k := by simp only [bitOffset]; omega
  have hbit := bitAdd_bit_agree hst hn hu hv (p := 32 * i + k) (by omega)
  rwa [State.bit, State.bit, hidx, hoff] at hbit

theorem bitAdd_agree (hst : s.AgreeBelowWp t) {n : Nat} (x : Word) (hn : n ≤ 32) (hlt : s.wp.toNat + n < 2 ^ 32)
    (hfits : wordIndex s.wp.toNat + 1 < s.cfg.wcap.toNat) : Alike State.AgreeBelowWp (bitAdd s n x) (bitAdd t n x) := by
  have hfitst : wordIndex t.wp.toNat + 1 < t.cfg.wcap.toNat := by rw [hst.1]; exact hfits
  obtain ⟨u, hu⟩ : ∃ u, bitAdd s n x = .ok u := ⟨_, bitAdd_ok hfits⟩
  obtain ⟨v, hv⟩ : ∃ v, bitAdd t n x = .ok v := ⟨_, bitAdd_ok hfitst⟩
  have hwp := bitAdd_wp_toNat hu hlt
  rw [hu, hv]
  exact .ok ((bitAdd_agreeWords hst hn hu hv).agreeBelowWp (by simp only [wordIndex]; omega))

theorem bitAddBytes_agree {g : List Byte} (hs : s.Inv) (hlive : s.live = true) (hst : s.AgreeBelowWp t)
    (hroom : s.wp.toNat + 8 * g.length ≤ 32 * s.capw.toNat) : Alike State.AgreeBelowWp (bitAddBytes s g) (bitAddBytes t g) := by
  induction g generalizing s t with
  | nil => exact .ok hst
  | cons b g ih =>
    rw [List.length_cons] at hroom
    have hbits := hs.bits_lt
    have hfits := wordIndex_succ_lt_of_room (p := s.wp.toNat) (n := 8) hs.guardWordFits (by omega) (by omega)
    refine (bitAdd_agree hst _ (by omega) (by omega) hfits).bind fun u v hu _ huv => ?_
    have hwp := bitAdd_wp_toNat hu (by omega)
    have huinv := hs.bitAdd hlive (by omega) (by omega) hu
    exact ih huinv ((bitAdd_live hu).trans hlive) huv (by rw [bitAdd_capw hu]; omega)

theorem varintScanFrom_agree (hst : s.AgreeBelowWp t) (hb : s.CursorsInBounds) (hg : s.GuardWordFits) (k pos : Nat) (res : Word)
    (shift : Nat) : varintScanFrom t k pos res shift = varintScanFrom s k pos res shift := by
  induction k generalizing pos res shift with
  | zero => rfl
  | succ k ih =>
    have hwp : t.wp = s.wp := by rw [hst.1]
    rw [varintScanFrom_succ, varintScanFrom_succ]
    by_cases hend : pos + 8 ≤ s.wp.toNat
    · rw [checkAvail_ok hend, checkAvail_ok (by rwa [hwp]), bitFetch_agree hst hb hg (by omega) (by omega) hend]
      simp only [ih]
    · rw [checkAvail_error (s := s) (by omega), checkAvail_error (s := t) (by rw [hwp]; omega), throwExc_bind, throwExc_bind]

theorem varintScan_agree (hst : s.AgreeBelowWp t) (hb : s.CursorsInBounds) (hg : s.GuardWordFits) : varintScan t = varintScan s := by
  have hrp : t.rp = s.rp := by rw [hst.1]
  rw [varintScan, varintScan, hrp]
  exact varintScanFrom_agree hst hb hg _ _ _ _

/-! ### The shared shapes -/

theorem addField_agree (hs : s.Inv) (hst : s.AgreeBelowWp t) {n : Nat} (x : Word) (hn1 : 1 ≤ n) (hn : n ≤ 32) :
    AlikeBelowWp (addField s n x) (addField t n x) := by
  obtain ⟨w, rfl⟩ := hst.exists_words
  have hbits := hs.bits_lt
  refine Alike.same_bind (x := checkRoom s n) fun _ hroom => ?_
  have hroom := checkRoom_eq_ok hroom
  have hfits := wordIndex_succ_lt_of_room hs.guardWordFits hn1 hroom
  exact (bitAdd_agree hst x hn (by omega) hfits).bind fun u v _ _ huv => .ok ⟨huv, rfl⟩

theorem readField_agree (hs : s.Inv) (hst : s.AgreeBelowWp t) {n : Nat} (hn1 : 1 ≤ n) (hn : n ≤ 32) :
    AlikeBelowWp (readField s n) (readField t n) := by
  obtain ⟨w, rfl⟩ := hst.exists_words
  refine Alike.same_bind (x := checkAvail s s.rp.toNat n) fun _ havail => ?_
  dsimp only
  rw [bitFetch_agree hst hs.cursorsInBounds hs.guardWordFits hn1 hn (checkAvail_eq_ok havail)]
  exact Alike.same_bind fun r _ => .ok ⟨⟨rfl, hst.2⟩, rfl⟩

theorem peekField_agree (hs : s.Inv) (hst : s.AgreeBelowWp t) {n : Nat} (hn1 : 1 ≤ n) (hn : n ≤ 32) :
    AlikeBelowWp (peekField s n) (peekField t n) := by
  obtain ⟨w, rfl⟩ := hst.exists_words
  refine Alike.same_bind (x := checkAvail s s.rp.toNat n) fun _ havail => ?_
  dsimp only
  rw [bitFetch_agree hst hs.cursorsInBounds hs.guardWordFits hn1 hn (checkAvail_eq_ok havail)]
  exact Alike.same_bind fun r _ => .ok ⟨hst, rfl⟩

theorem addVarint_agree (hs : s.Inv) (hst : s.AgreeBelowWp t) (x : Word) : AlikeBelowWp (addVarint s x) (addVarint t x) := by
  obtain ⟨w, rfl⟩ := hst.exists_words
  refine Alike.same_bind (x := checkLive s) fun _ hlive => ?_
  refine Alike.same_bind (x := checkRoom s (8 * (varintGroups x).length)) fun _ hroom => ?_
  exact (bitAddBytes_agree hs (checkLive_eq_ok hlive) hst (checkRoom_eq_ok hroom)).bind fun u v _ _ huv => .ok ⟨huv, rfl⟩

theorem readVarint_agree (hs : s.Inv) (hst : s.AgreeBelowWp t) (f : Word → Word) :
    AlikeBelowWp (readVarint s f) (readVarint t f) := by
  have hscan := varintScan_agree hst hs.cursorsInBounds hs.guardWordFits
  obtain ⟨w, rfl⟩ := hst.exists_words
  refine Alike.same_bind (x := checkLive s) fun _ _ => ?_
  dsimp only
  rw [hscan]
  exact Alike.same_bind fun r _ => .ok ⟨⟨rfl, hst.2⟩, rfl⟩

theorem peekVarint_agree (hs : s.Inv) (hst : s.AgreeBelowWp t) (f : Word → Word) :
    AlikeBelowWp (peekVarint s f) (peekVarint t f) := by
  have hscan := varintScan_agree hst hs.cursorsInBounds hs.guardWordFits
  obtain ⟨w, rfl⟩ := hst.exists_words
  refine Alike.same_bind (x := checkLive s) fun _ _ => ?_
  dsimp only
  rw [hscan]
  exact Alike.same_bind fun r _ => .ok ⟨hst, rfl⟩

/-! ### The framing loops -/

theorem copyBytes_agree {n : Nat} (hst : AgreeWords n s t) (dstLen i : Nat) (w : Word) (k : Nat) :
    Alike (AgreeWords n) (copyBytes s dstLen i w k) (copyBytes t dstLen i w k) := by
  induction k with
  | zero => exact .ok hst
  | succ k ih =>
    refine ih.bind fun u v _ _ huv => ?_
    split
    · obtain ⟨hv, hwords⟩ := huv
      rw [hv]
      unfold memWrite
      split
      · exact .ok ⟨rfl, hwords⟩
      · exact .error _
    · exact .ok huv

/-- Copying the first words gives the same frame memory when those words agree. -/
theorem copyWords_agree {m : Nat} (hst : AgreeWords m s t) (dstLen : Nat) {n : Nat} (hn : n ≤ m) :
    Alike (AgreeWords m) (copyWords s dstLen n) (copyWords t dstLen n) := by
  induction n with
  | zero => exact .ok hst
  | succ n ih =>
    refine (ih (by omega)).bind fun u v _ _ huv => ?_
    obtain ⟨hv, hwords⟩ := id huv
    have hload : loadWord v n = loadWord u n := by
      unfold loadWord
      rw [hwords n (by omega), hv]
    rw [hload]
    exact Alike.same_bind fun w _ => copyBytes_agree huv dstLen n w 4

theorem sourceWord_agree (hst : t = { s with words := t.words }) (length i : Nat) : sourceWord t length i = sourceWord s length i := by
  rw [hst]; rfl

theorem storeWord_agree {n : Nat} (hst : AgreeWords n s t) (w : Word) :
    Alike (AgreeWords (n + 1)) (storeWord s n w) (storeWord t n w) := by
  obtain ⟨ht, hwords⟩ := hst
  have hcfg : t.cfg = s.cfg := by rw [ht]
  by_cases hn : n < s.cfg.wcap.toNat
  · rw [storeWord_ok hn, storeWord_ok (s := t) (by rwa [hcfg])]
    refine .ok ⟨by rw [ht], fun i hi => ?_⟩
    rw [word_write, word_write]
    split
    · rfl
    · exact hwords i (by omega)
  · simp only [storeWord, hcfg, if_neg hn]
    exact .error _

/-- Rebuilding the first words makes them agree. -/
theorem loadFrame_agree (hst : t = { s with words := t.words }) (length n : Nat) :
    Alike (AgreeWords n) (loadFrame s length n) (loadFrame t length n) := by
  induction n with
  | zero => exact .ok ⟨hst, nofun⟩
  | succ n ih =>
    refine ih.bind fun u v _ _ huv => ?_
    rw [sourceWord_agree huv.1]
    exact Alike.same_bind fun w _ => storeWord_agree huv w

/-! ### The commands -/

/-- `command_agree` for a command that needs a live buffer. -/
theorem command_checkLive_agree {s' : State} {x y : Except Stop (State × Word)} (hst : s.AgreeBelowWp t)
    (hxy : s.live = true → AlikeBelowWp x y) (h : command s (checkLive s >>= fun _ => x) = .next s') :
    ∃ t', command t (checkLive t >>= fun _ => y) = .next t' ∧ s'.AgreeBelowWp t' := by
  refine command_agree hst ?_ h
  have hlive : checkLive t = checkLive s := by rw [hst.1]; rfl
  rw [hlive]
  exact Alike.same_bind fun _ hl => hxy (checkLive_eq_ok hl)

/-- The raw commands of R58 to R60: the rest of the algorithm runs at a width from 1 to 32. -/
theorem checkWidth_bind_alike {n : Byte} {x y : Except Stop (State × Word)}
    (hxy : 1 ≤ n.toNat → n.toNat ≤ 32 → AlikeBelowWp x y) :
    AlikeBelowWp (checkWidth n >>= fun _ => x) (checkWidth n >>= fun _ => y) :=
  Alike.same_bind fun _ hw => hxy (checkWidth_eq_ok hw).1 (checkWidth_eq_ok hw).2

variable {s' : State}

theorem execNew_agree (hs : s.Inv) (hst : s.AgreeBelowWp t) (capBytes : Word) (ident : Half) (h : execNew capBytes ident s = .next s') :
    ∃ t', execNew capBytes ident t = .next t' ∧ s'.AgreeBelowWp t' := by
  have hguard : 1 < s.cfg.wcap.toNat := hs.cfg_wf.1
  obtain ⟨w, rfl⟩ := hst.exists_words
  refine command_agree hst (Alike.same_bind (x := checkNotLive s) fun _ _ => ?_) h
  refine Alike.ite_throwExc fun _ => Alike.ite_throwExc fun _ => ?_
  have hacq : (s.acquire (wordsFor capBytes)).AgreeBelowWp (State.acquire { s with words := w } (wordsFor capBytes)) :=
    ⟨rfl, fun p hp => absurd hp (Nat.not_lt_zero p)⟩
  have hfits : wordIndex (s.acquire (wordsFor capBytes)).wp.toNat + 1 < s.cfg.wcap.toNat := by
    simpa [State.acquire, wordIndex] using hguard
  have hlt : (s.acquire (wordsFor capBytes)).wp.toNat + 16 < 2 ^ 32 := by simp [State.acquire]
  exact (bitAdd_agree hacq (ident.setWidth 32) (by omega) hlt hfits).bind fun u v _ _ huv => .ok ⟨huv, rfl⟩

theorem execGetlen_agree (hst : s.AgreeBelowWp t) (h : execGetlen s = .next s') :
    ∃ t', execGetlen t = .next t' ∧ s'.AgreeBelowWp t' := by
  obtain ⟨w, rfl⟩ := hst.exists_words
  refine command_checkLive_agree hst (fun _ => ?_) h
  exact Alike.ite_throwExc fun _ => .ok ⟨hst, rfl⟩

theorem execRdcsr_agree (hst : s.AgreeBelowWp t) (n : Byte) (h : execRdcsr n s = .next s') :
    ∃ t', execRdcsr n t = .next t' ∧ s'.AgreeBelowWp t' := by
  have hcsr : csrValue t n = csrValue s n := by rw [hst.1]; rfl
  unfold execRdcsr at h ⊢
  rw [hcsr]
  split at h
  · cases h
    exact ⟨_, rfl, by rw [hst.1]; rfl, hst.2⟩
  · exact command_agree hst (.error _) h

/-- The sentinel's `BitAdd` has cleared the rest of the last word TOARRAY copies, so the copied words agree whole (R92). -/
theorem execToarray_agree (hs : s.Inv) (hst : s.AgreeBelowWp t) (d : Word) (h : execToarray d s = .next s') :
    ∃ t', execToarray d t = .next t' ∧ s'.AgreeBelowWp t' := by
  have hbits := hs.bits_lt
  obtain ⟨w, rfl⟩ := hst.exists_words
  refine command_checkLive_agree hst (fun _ => ?_) h
  refine Alike.same_bind (x := checkFrameSize s d) fun _ _ => Alike.same_bind (x := checkRoom s 1) fun _ hroom => ?_
  have hroom := checkRoom_eq_ok hroom
  have hfits := wordIndex_succ_lt_of_room hs.guardWordFits le_rfl hroom
  refine (bitAdd_agree hst 1 (by omega) (by omega) hfits).bind fun u v hu hv huv => ?_
  have hwords := bitAdd_agreeWords hst (by omega) hu hv
  have huwp : u.wp.toNat = s.wp.toNat + 1 := bitAdd_wp_toNat hu (by omega)
  have hvwp : v.wp = u.wp := by rw [huv.1]
  dsimp only
  rw [hvwp]
  refine (copyWords_agree hwords d.toNat (by rw [huwp]; simp)).bind fun u' v' hu' _ huv' => .ok ⟨?_, rfl⟩
  have hwp : u'.wp = u.wp := by rw [copyWords_eq_ok hu']
  exact huv'.agreeBelowWp (by rw [hwp, huwp]; simp only [wordIndex]; omega)

theorem execFromarray_agree (hst : s.AgreeBelowWp t) (l : Word) (h : execFromarray l s = .next s') :
    ∃ t', execFromarray l t = .next t' ∧ s'.AgreeBelowWp t' := by
  obtain ⟨w, rfl⟩ := hst.exists_words
  refine command_agree hst ?_ h
  refine Alike.same_bind (x := checkNotLive s) fun _ _ => Alike.same_bind (x := checkFrameSize s l) fun _ _ => ?_
  refine Alike.ite_throwExc fun hpos => Alike.same_bind (x := memRead s (l.toNat - 1)) fun last _ => Alike.ite_throwExc fun _ => ?_
  refine Alike.bind (loadFrame_agree rfl l.toNat (wordsFor l)) fun u v _ _ huv => .ok ⟨?_, rfl⟩
  have hlast : hsb last ≤ 8 := hsbFrom_le last 8
  refine AgreeWords.agreeBelowWp (n := wordsFor l) ⟨by rw [huv.1], huv.2⟩ ?_
  refine (Nat.mod_le _ _).trans ?_
  simp only [wordsFor]
  omega

end Agree

/-- Settles O56, command by command: the adds write the same bits above WP on both sides, every fetch stays below WP, TOARRAY copies words
whose stale bits its sentinel has cleared, and the other commands do not look at the word memory. -/
theorem staleStorageIsUnobservable : Obligations.StaleStorageIsUnobservable := by
  intro i s t s' hs hst h
  cases i with
  | new capBytes ident => exact execNew_agree hs hst capBytes ident h
  | rdcsr n => exact execRdcsr_agree hst n h
  | getlen => exact execGetlen_agree hst h
  | toarray d => exact execToarray_agree hs hst d h
  | fromarray l => exact execFromarray_agree hst l h
  | release | clear =>
    refine command_checkLive_agree hst (fun _ => ?_) h
    exact .ok ⟨⟨by rw [hst.1], fun p hp => absurd hp (Nat.not_lt_zero p)⟩, rfl⟩
  | isfin =>
    obtain ⟨w, rfl⟩ := hst.exists_words
    refine command_checkLive_agree hst (fun _ => ?_) h
    exact .ok ⟨hst, rfl⟩
  | add n x => exact command_checkLive_agree hst (fun _ => checkWidth_bind_alike (addField_agree hs hst x)) h
  | read n => exact command_checkLive_agree hst (fun _ => checkWidth_bind_alike (readField_agree hs hst)) h
  | peek n => exact command_checkLive_agree hst (fun _ => checkWidth_bind_alike (peekField_agree hs hst)) h
  | addbool | addbyte => exact command_checkLive_agree hst (fun _ => addField_agree hs hst _ (by omega) (by omega)) h
  | readbool | readbyte => exact command_checkLive_agree hst (fun _ => readField_agree hs hst (by omega) (by omega)) h
  | peekbool | peekbyte => exact command_checkLive_agree hst (fun _ => peekField_agree hs hst (by omega) (by omega)) h
  | addshort | addushort | adduint | addint => exact command_agree hst (addVarint_agree hs hst _) h
  | readshort | readushort | readuint | readint => exact command_agree hst (readVarint_agree hs hst _) h
  | peekshort | peekushort | peekuint | peekint => exact command_agree hst (peekVarint_agree hs hst _) h

end Sys2Proof.Machine

/-! SUPPORT. The memory family (spec R27 to R33): the fields a raw fetch answers (R57 to R60), the commands that read only (R33), the frame
TOARRAY writes (R92) and the buffer FROMARRAY rebuilds from one (R93). -/

namespace Sys2Proof.Machine

/-! ## Commands that answer -/

/-- Settles O52: an invariant state's commands touch no address that does not exist, shown command by command in `exec_answers`. -/
theorem everyCommandEndsInAResponse : Obligations.EveryCommandEndsInAResponse :=
  fun i _ hs => exec_answers hs i

/-- On a live buffer that is not dead, a command that needs one runs the rest of its algorithm (R51, R98). -/
theorem command_checkLive_of_ready {s : State} (h : s.Ready) (body : Except Stop (State × Word)) :
    command s (checkLive s >>= fun _ => body) = complete s body := by
  obtain ⟨hlive, hfatal⟩ := h
  rw [command_alive hfatal, checkLive_ok hlive, ok_bind]

/-- On a released engine that is not dead, a command that acquires a buffer runs the rest of its algorithm (R51, R98). -/
theorem command_checkNotLive_of_idle {s : State} (h : s.Idle) (body : Except Stop (State × Word)) :
    command s (checkNotLive s >>= fun _ => body) = complete s body := by
  obtain ⟨hlive, hfatal⟩ := h
  rw [command_alive hfatal, checkNotLive_ok hlive, ok_bind]

/-! ## The fixed-width fetches -/

/-- A field below WP can be fetched, and the fetch answers it (R28, R57). -/
theorem State.Inv.bitFetch_holdsField {s : State} (hs : s.Inv) {pos n : Nat} (hn1 : 1 ≤ n) (hn : n ≤ 32) (hend : pos + n ≤ s.wp.toNat) :
    ∃ r, bitFetch s pos n = .ok r ∧ s.HoldsField pos n r := by
  obtain ⟨r, hr, hbits⟩ := bitFetch_ok hn1 hn (hend.trans hs.cursorsInBounds.2) hs.guardWordFits
  exact ⟨r, hr, fun k _ => hbits k⟩

section Field

variable {s : State} {n : Nat} {r : Word}

theorem peekField_ok (havail : s.rp.toNat + n ≤ s.wp.toNat) (hr : bitFetch s s.rp.toNat n = .ok r) : peekField s n = .ok (s, r) := by
  rw [peekField, checkAvail_ok havail, ok_bind, hr, ok_bind, pure_eq_ok]

theorem readField_ok (havail : s.rp.toNat + n ≤ s.wp.toNat) (hr : bitFetch s s.rp.toNat n = .ok r) :
    readField s n = .ok ({ s with rp := s.rp + BitVec.ofNat 32 n }, r) := by
  rw [readField, checkAvail_ok havail, ok_bind, hr, ok_bind, pure_eq_ok]

/-- RP does not wrap when it moves past a field below WP (log 13). -/
theorem rp_add_toNat (havail : s.rp.toNat + n ≤ s.wp.toNat) : (s.rp + BitVec.ofNat 32 n).toNat = s.rp.toNat + n := by
  simp only [BitVec.toNat_add, BitVec.toNat_ofNat]
  omega

end Field

section Raw

variable {s : State} {n : Byte}

theorem exec_peek_of_ready (h : s.Ready) (hn1 : 1 ≤ n.toNat) (hn : n.toNat ≤ 32) :
    exec (.peek n) s = complete s (peekField s n.toNat) := by
  change command s (checkLive s >>= fun _ => checkWidth n >>= fun _ => peekField s n.toNat) = _
  rw [command_checkLive_of_ready h, checkWidth_ok hn1 hn, ok_bind]

theorem exec_read_of_ready (h : s.Ready) (hn1 : 1 ≤ n.toNat) (hn : n.toNat ≤ 32) :
    exec (.read n) s = complete s (readField s n.toNat) := by
  change command s (checkLive s >>= fun _ => checkWidth n >>= fun _ => readField s n.toNat) = _
  rw [command_checkLive_of_ready h, checkWidth_ok hn1 hn, ok_bind]

end Raw

/-- Settles O27: both commands answer the one field that `BitFetch` takes at RP, and R5 keeps RP's sum below `2^32`. -/
theorem rawReadsReturnTheField : Obligations.RawReadsReturnTheField := by
  intro s n hs hready hn1 hn havail
  obtain ⟨r, hr, hfield⟩ := hs.bitFetch_holdsField hn1 hn havail
  have hpeek : exec (.peek n) s = .next (respond s statusOk r) := by
    rw [exec_peek_of_ready hready hn1 hn, peekField_ok havail hr, complete_ok]
  have hread : exec (.read n) s = .next (respond { s with rp := s.rp + BitVec.ofNat 32 n.toNat } statusOk r) := by
    rw [exec_read_of_ready hready hn1 hn, readField_ok havail hr, complete_ok]
  exact ⟨r, hfield, hpeek, _, hread, rfl, rp_add_toNat havail⟩

/-! ## The commands that read only -/

/-- Two runs of an algorithm that reads only, from `s` and from `t`: each hands back the state it was given, with one and the same result. -/
abbrev SameAnswer (s t : State) : Except Stop (State × Word) → Except Stop (State × Word) → Prop :=
  Alike fun p q => p.1 = s ∧ q.1 = t ∧ p.2 = q.2

/-- No exception has the status OK (R43, R95). -/
theorem Exc.code_ne_statusOk (e : Exc) : e.code ≠ statusOk := by
  cases e <;> decide

theorem SameAnswer.ok_right {s t u : State} {r : Word} {y : Except Stop (State × Word)} (h : SameAnswer s t (.ok (u, r)) y) :
    u = s ∧ y = .ok (t, r) := by
  cases h with
  | @ok _ q hq =>
    obtain ⟨v, r'⟩ := q
    obtain ⟨rfl, rfl, rfl⟩ := hq
    exact ⟨rfl, rfl⟩

section ReadsOnly

variable {s t : State} {r : Word}

/-- A command that answers OK is not dead, and its algorithm has succeeded: no exception's code is OK's, and neither is Dead. -/
theorem command_ok_cases {body : Except Stop (State × Word)} (h : command s body = .next t) (hok : t.Answers statusOk r) :
    s.fatal = false ∧ ∃ u, body = .ok (u, r) ∧ t = respond u statusOk r := by
  rcases command_next_cases h with ⟨-, rfl⟩ | ⟨hfatal, u, r', hu, rfl⟩ | ⟨-, e, -, rfl⟩
  all_goals obtain ⟨hstatus, hresult⟩ := (responseWord_inj ..).1 (Option.some.inj hok)
  · exact absurd hstatus (by decide)
  · cases hresult
    exact ⟨hfatal, u, hu, rfl⟩
  · exact absurd hstatus e.code_ne_statusOk

/-- A command whose algorithm reads only leaves nothing but its response when it answers OK, and then answers the same again. -/
theorem command_repeats {a b : Except Stop (State × Word)} (hsame : SameAnswer s (respond s statusOk r) a b)
    (h : command s a = .next t) (hok : t.Answers statusOk r) : t = respond s statusOk r ∧ command t b = .next t := by
  obtain ⟨hfatal, u, rfl, rfl⟩ := command_ok_cases h hok
  obtain ⟨rfl, rfl⟩ := hsame.ok_right
  exact ⟨rfl, command_alive (s := respond u statusOk r) hfatal _⟩

theorem execRdcsr_repeats {n : Byte} (h : exec (.rdcsr n) s = .next t) (hok : t.Answers statusOk r) :
    t = { s with rsp := t.rsp } ∧ exec (.rdcsr n) t = .next t := by
  cases hcsr : csrValue s n with
  | some v =>
    rw [exec_rdcsr_of_some hcsr] at h
    cases h
    exact ⟨rfl, exec_rdcsr_of_some (s := respond s statusOk v) hcsr⟩
  | none =>
    rw [exec_rdcsr_of_none hcsr] at h
    obtain ⟨-, u, hu, -⟩ := command_ok_cases h hok
    cases hu

theorem peekField_sameAnswer (s : State) (n : Nat) (x : Option ResponseWord) :
    SameAnswer s { s with rsp := x } (peekField s n) (peekField { s with rsp := x } n) :=
  Alike.same_bind (x := checkAvail s s.rp.toNat n) fun _ _ =>
    Alike.same_bind (x := bitFetch s s.rp.toNat n) fun _ _ => .ok ⟨rfl, rfl, rfl⟩

/-- A scan does not look at the response (R79). -/
theorem varintScanFrom_rsp (s : State) (x : Option ResponseWord) (k pos : Nat) (res : Word) (shift : Nat) :
    varintScanFrom { s with rsp := x } k pos res shift = varintScanFrom s k pos res shift := by
  induction k generalizing pos res shift with
  | zero => rfl
  | succ k ih =>
    rw [varintScanFrom_succ, varintScanFrom_succ]
    simp only [ih]
    rfl

theorem peekVarint_sameAnswer (s : State) (f : Word → Word) (x : Option ResponseWord) :
    SameAnswer s { s with rsp := x } (peekVarint s f) (peekVarint { s with rsp := x } f) := by
  refine Alike.same_bind (x := checkLive s) fun _ _ => ?_
  have hscan : varintScan { s with rsp := x } = varintScan s := varintScanFrom_rsp s x 5 _ _ _
  rw [hscan]
  exact Alike.same_bind fun _ _ => .ok ⟨rfl, rfl, rfl⟩

/-- The read-only commands that follow the template of R51, run with one response on the channel and with another. -/
theorem exec_sameAnswer {i : Instr} (hi : i.readsOnly = true) (hrdcsr : i.isRdcsr = false) (s : State) (x : Option ResponseWord) :
    ∃ a b, exec i s = command s a ∧ exec i { s with rsp := x } = command { s with rsp := x } b
      ∧ SameAnswer s { s with rsp := x } a b := by
  cases i with
  | peek n =>
    exact ⟨_, _, rfl, rfl, Alike.same_bind (x := checkLive s) fun _ _ => Alike.same_bind (x := checkWidth n) fun _ _ =>
      peekField_sameAnswer s n.toNat x⟩
  | peekbool | peekbyte =>
    exact ⟨_, _, rfl, rfl, Alike.same_bind (x := checkLive s) fun _ _ => peekField_sameAnswer s _ x⟩
  | getlen =>
    exact ⟨_, _, rfl, rfl, Alike.same_bind (x := checkLive s) fun _ _ => Alike.ite_throwExc fun _ => .ok ⟨rfl, rfl, rfl⟩⟩
  | isfin => exact ⟨_, _, rfl, rfl, Alike.same_bind (x := checkLive s) fun _ _ => .ok ⟨rfl, rfl, rfl⟩⟩
  | peekshort | peekushort | peekuint | peekint => exact ⟨_, _, rfl, rfl, peekVarint_sameAnswer s _ x⟩
  | rdcsr n => cases hrdcsr
  | _ => cases hi

end ReadsOnly

/-- Settles O33: RDCSR reads a register, and each of the other nine algorithms reads only, so what it answers OK it answers again. -/
theorem readOnlyCommandsRepeat : Obligations.ReadOnlyCommandsRepeat := by
  intro i s t r hi h hok
  by_cases hrdcsr : i.isRdcsr = true
  · cases i with
    | rdcsr n => exact execRdcsr_repeats h hok
    | _ => cases hrdcsr
  · obtain ⟨a, b, ha, hb, hsame⟩ := exec_sameAnswer hi (by simpa using hrdcsr) s (some (responseWord statusOk r))
    rw [ha] at h
    obtain ⟨rfl, hagain⟩ := command_repeats hsame h hok
    exact ⟨rfl, hb.trans hagain⟩

section Append

variable {s t : State} {n : Nat} {v : Word}

/-- `BitAdd` appends its field and writes no word but its two (R56, R64). -/
theorem bitAdd_appends (hn : n ≤ 32) (hlt : s.wp.toNat + n < 2 ^ 32) (h : bitAdd s n v = .ok t) : s.Appends t n v := by
  obtain ⟨-, -, hwords⟩ := bitAdd_eq_ok h
  refine ⟨bitAdd_wp_toNat h hlt, fun p hp => ?_, fun k hk => ?_, fun p hlo hhi => ?_, fun i hi hi' => ?_⟩
  · rw [bitAdd_bit hn h, if_pos hp, ite_self]
  · have hin : wordIndex (s.wp.toNat + k) = wordIndex s.wp.toNat ∨ wordIndex (s.wp.toNat + k) = wordIndex s.wp.toNat + 1 := by
      simp only [wordIndex]; omega
    rw [bitAdd_bit hn h, if_pos hin, if_neg (by omega), if_pos (by omega), Nat.add_sub_cancel_left]
  · have hin : wordIndex p = wordIndex s.wp.toNat ∨ wordIndex p = wordIndex s.wp.toNat + 1 := by
      simp only [wordIndex]; omega
    rw [bitAdd_bit hn h, if_pos hin, if_neg (by omega), if_neg (by omega)]
  · rw [State.word, hwords, Memory.read_write_other _ _ (show i ≠ wordIndex s.wp.toNat + 1 from hi'),
      Memory.read_write_other _ _ (show i ≠ wordIndex s.wp.toNat from hi), State.word]

end Append

/-! ## Words as bytes -/

/-- Byte `j` of the buffer is byte `j % 4` of word `j / 4` (R29, R30). -/
theorem State.holdsByte_byteOf_word (s : State) (j : Nat) : s.HoldsByte j (byteOf (s.word (j / 4)) (j % 4)) := by
  intro k hk
  have hidx : wordIndex (8 * j + k) = j / 4 := by simp only [wordIndex]; omega
  have hoff : bitOffset (8 * j + k) = 8 * (j % 4) + k := by simp only [bitOffset]; omega
  rw [State.bit, hidx, hoff, byteOf_getLsbD]
  simp [hk]

/-- A word put together from four bytes, byte by byte, lowest first (R29). -/
theorem byteOf_append (b0 b1 b2 b3 : Byte) :
    byteOf (b3 ++ b2 ++ b1 ++ b0) 0 = b0 ∧ byteOf (b3 ++ b2 ++ b1 ++ b0) 1 = b1
      ∧ byteOf (b3 ++ b2 ++ b1 ++ b0) 2 = b2 ∧ byteOf (b3 ++ b2 ++ b1 ++ b0) 3 = b3 := by
  and_intros
  all_goals
    apply BitVec.eq_of_getLsbD_eq
    intro k hk
    rw [byteOf_getLsbD]
    simp only [BitVec.getLsbD_append]
    grind

/-! ## TOARRAY's copy -/

section Copy

variable {s : State} {dstLen : Nat}

/-- The copy of a word's first `k` bytes answers inside the frame memory, and writes them at `F[4 * i ..]`, each one below `dstLen` only. -/
theorem copyBytes_ok (hd : dstLen ≤ s.cfg.fcap.toNat) (i : Nat) (w : Word) (k : Nat) :
    ∃ t, copyBytes s dstLen i w k = .ok t ∧ ∀ j, t.frameByte j =
      if j < dstLen ∧ 4 * i ≤ j ∧ j < 4 * i + k then byteOf w (j - 4 * i) else s.frameByte j := by
  induction k with
  | zero => exact ⟨s, rfl, fun j => by rw [if_neg (by omega)]⟩
  | succ k ih =>
    obtain ⟨t, ht, hbytes⟩ := ih
    have hcfg : t.cfg = s.cfg := by rw [copyBytes_eq_ok ht]
    rw [copyBytes, ht, ok_bind]
    by_cases hlt : 4 * i + k < dstLen
    · rw [if_pos hlt, memWrite_ok (by rw [hcfg]; omega)]
      refine ⟨_, rfl, fun j => ?_⟩
      rw [frameByte_write, hbytes]
      by_cases hj : j = 4 * i + k
      · rw [if_pos hj, if_pos (by omega), hj, Nat.add_sub_cancel_left]
      · rw [if_neg hj]
        exact if_congr (by omega) rfl rfl
    · rw [if_neg hlt]
      exact ⟨t, rfl, fun j => (hbytes j).trans (if_congr (by omega) rfl rfl)⟩

/-- The copy of the first `n` words answers inside both memories, and writes their bytes below `dstLen` at `F[0 ..]` (R92). -/
theorem copyWords_ok (hd : dstLen ≤ s.cfg.fcap.toNat) {n : Nat} (hn : n ≤ s.cfg.wcap.toNat) :
    ∃ t, copyWords s dstLen n = .ok t ∧ ∀ j, t.frameByte j =
      if j < dstLen ∧ j < 4 * n then byteOf (s.word (j / 4)) (j % 4) else s.frameByte j := by
  induction n with
  | zero => exact ⟨s, rfl, fun j => by rw [if_neg (by omega)]⟩
  | succ n ih =>
    obtain ⟨t, ht, hbytes⟩ := ih (by omega)
    have hst := copyWords_eq_ok ht
    have hcfg : t.cfg = s.cfg := by rw [hst]
    have hword : t.word n = s.word n := by rw [hst]; rfl
    obtain ⟨u, hu, hcopied⟩ := copyBytes_ok (s := t) (dstLen := dstLen) (by rwa [hcfg]) n (s.word n) 4
    refine ⟨u, ?_, fun j => ?_⟩
    · rw [copyWords, ht, ok_bind, loadWord_ok (by rw [hcfg]; omega), ok_bind, hword, hu]
    · rw [hcopied, hbytes]
      by_cases hj : 4 * n ≤ j ∧ j < 4 * n + 4
      · have hdiv : j / 4 = n := by omega
        have hmod : j - 4 * n = j % 4 := by omega
        rw [hdiv, hmod, if_neg (c := j < dstLen ∧ j < 4 * n) (by omega)]
        exact if_congr (by omega) rfl rfl
      · rw [if_neg (by omega)]
        exact if_congr (by omega) rfl rfl

end Copy

/-- TOARRAY that fits appends the sentinel, copies the words up to the sentinel's, and answers the byte length (R92). -/
theorem exec_toarray_of_ready {s t u : State} {d : Word} (hready : s.Ready) (hd : d.toNat ≤ s.cfg.fcap.toNat)
    (hroom : s.wp.toNat + 1 ≤ 32 * s.capw.toNat) (ht : bitAdd s 1 1 = .ok t) (hwp : t.wp.toNat = s.wp.toNat + 1)
    (hu : copyWords t d.toNat (s.wp.toNat / 32 + 1) = .ok u) :
    exec (.toarray d) s = .next (respond u statusOk (BitVec.ofNat 32 (s.wp.toNat / 8 + 1))) := by
  refine (command_checkLive_of_ready hready _).trans ?_
  rw [checkFrameSize_ok hd, ok_bind, checkRoom_ok hroom, ok_bind, ht, ok_bind]
  simp only [hwp, byteLength, wordIndex, Nat.add_sub_cancel, hu, ok_bind, pure_eq_ok, complete_ok]

/-- Settles O45: the sentinel is one `BitAdd`, the copy changes the frame memory only, and a byte of a word is a byte of the buffer. -/
theorem toarrayWritesTheFrame : Obligations.ToarrayWritesTheFrame := by
  intro s d hs hready hd hroom
  have hbits := hs.bits_lt
  have hguard := hs.guardWordFits
  have hfits := wordIndex_succ_lt_of_room hguard le_rfl hroom
  obtain ⟨t, ht⟩ : ∃ t, bitAdd s 1 1 = .ok t := ⟨_, bitAdd_ok hfits⟩
  have happends := bitAdd_appends (by omega) (by omega) ht
  have hcfg := bitAdd_cfg ht
  have hwords : s.wp.toNat / 32 + 1 ≤ t.cfg.wcap.toNat := by rw [hcfg]; omega
  obtain ⟨u, hu, hbytes⟩ := copyWords_ok (s := t) (dstLen := d.toNat) (by rwa [hcfg]) hwords
  have hexec := exec_toarray_of_ready hready hd hroom ht (bitAdd_wp_toNat ht (by omega)) hu
  have hsame : t.frame = s.frame := by rw [bitAdd_eq ht]
  rw [copyWords_eq_ok hu] at hexec
  refine ⟨_, hexec, by rw [bitAdd_eq ht]; rfl, rfl, happends, fun j hj hlast => ?_, fun j hj => ?_⟩
  · have hbyte : u.frameByte j = byteOf (t.word (j / 4)) (j % 4) := (hbytes j).trans (if_pos ⟨hj, hlast⟩)
    change t.HoldsByte j (u.frameByte j)
    rw [hbyte]
    exact t.holdsByte_byteOf_word j
  · have hbyte : u.frameByte j = t.frameByte j := (hbytes j).trans (if_neg (by omega))
    change u.frameByte j = s.frameByte j
    rw [hbyte, State.frameByte, hsame, State.frameByte]

/-! ## FROMARRAY's source -/

/-- Byte `j` of FROMARRAY's source (R93): frame byte `j` below `length`, zero from there up. -/
def State.paddedByte (s : State) (length j : Nat) : Byte := if j < length then s.frameByte j else 0

section Load

variable {s : State} {length : Nat}

theorem sourceByte_ok (hl : length ≤ s.cfg.fcap.toNat) (j : Nat) : sourceByte s length j = .ok (s.paddedByte length j) := by
  unfold sourceByte State.paddedByte
  split
  · exact memRead_ok (by omega)
  · rfl

/-- Word `i` of the source holds its bytes `4 * i` to `4 * i + 3`, lowest first (R29). -/
theorem sourceWord_ok (hl : length ≤ s.cfg.fcap.toNat) (i : Nat) :
    ∃ w, sourceWord s length i = .ok w ∧ ∀ j, j / 4 = i → byteOf w (j % 4) = s.paddedByte length j := by
  refine ⟨s.paddedByte length (4 * i + 3) ++ s.paddedByte length (4 * i + 2) ++ s.paddedByte length (4 * i + 1)
    ++ s.paddedByte length (4 * i), ?_, fun j hj => ?_⟩
  · simp only [sourceWord, sourceByte_ok hl, ok_bind, pure_eq_ok]
  · obtain ⟨h0, h1, h2, h3⟩ := byteOf_append (s.paddedByte length (4 * i)) (s.paddedByte length (4 * i + 1))
      (s.paddedByte length (4 * i + 2)) (s.paddedByte length (4 * i + 3))
    have hcases : j = 4 * i ∨ j = 4 * i + 1 ∨ j = 4 * i + 2 ∨ j = 4 * i + 3 := by omega
    rcases hcases with rfl | rfl | rfl | rfl
    · rw [Nat.mul_mod_right, h0]
    · rw [Nat.mul_add_mod, h1]
    · rw [Nat.mul_add_mod, h2]
    · rw [Nat.mul_add_mod, h3]

/-- Rebuilding the first `n` words answers inside both memories; they hold the source's bytes, and no other word changes (R93). -/
theorem loadFrame_ok (hl : length ≤ s.cfg.fcap.toNat) {n : Nat} (hn : n ≤ s.cfg.wcap.toNat) :
    ∃ t, loadFrame s length n = .ok t ∧ (∀ j < 4 * n, t.HoldsByte j (s.paddedByte length j)) ∧ ∀ i, n ≤ i → t.word i = s.word i := by
  suffices h : ∃ t, loadFrame s length n = .ok t ∧ (∀ j < 4 * n, byteOf (t.word (j / 4)) (j % 4) = s.paddedByte length j)
      ∧ ∀ i, n ≤ i → t.word i = s.word i by
    obtain ⟨t, ht, hbytes, habove⟩ := h
    exact ⟨t, ht, fun j hj => hbytes j hj ▸ t.holdsByte_byteOf_word j, habove⟩
  induction n with
  | zero => exact ⟨s, rfl, nofun, fun _ _ => rfl⟩
  | succ n ih =>
    obtain ⟨t, ht, hbytes, habove⟩ := ih (by omega)
    have hst := loadFrame_eq_ok ht
    have hcfg : t.cfg = s.cfg := by rw [hst]
    obtain ⟨w, hw, hwbytes⟩ := sourceWord_ok hl n
    have hstore := storeWord_ok (s := t) (i := n) (by rw [hcfg]; omega) w
    refine ⟨_, by rw [loadFrame, ht, ok_bind, sourceWord_agree hst, hw, ok_bind, hstore], fun j hj => ?_, fun i hi => ?_⟩
    · rw [word_write]
      by_cases hlast : j / 4 = n
      · rw [if_pos hlast, hwbytes j hlast]
      · rw [if_neg hlast, hbytes j (by omega)]
    · rw [word_write, if_neg (by omega), habove i (by omega)]

end Load

/-! ## The highest set bit -/

/-- The scan of the low `k` bits finds none set, or the highest set one (R90). -/
theorem hsbFrom_cases (b : Byte) (k : Nat) :
    (hsbFrom b k = 0 ∧ ∀ j < k, b.getLsbD j = false)
      ∨ ∃ m < k, hsbFrom b k = m + 1 ∧ b.getLsbD m = true ∧ ∀ j, m < j → j < k → b.getLsbD j = false := by
  induction k with
  | zero => exact .inl ⟨rfl, nofun⟩
  | succ k ih =>
    cases hk : b.getLsbD k with
    | true => exact .inr ⟨k, by omega, by rw [hsbFrom, if_pos hk], hk, fun j hlo hhi => absurd hlo (by omega)⟩
    | false =>
      have hscan : hsbFrom b (k + 1) = hsbFrom b k := by rw [hsbFrom, hk]; rfl
      have hclear : ∀ j, j < k + 1 → (j < k → b.getLsbD j = false) → b.getLsbD j = false := fun j hj hbelow => by
        rcases Nat.lt_succ_iff_lt_or_eq.1 hj with hj | rfl
        · exact hbelow hj
        · exact hk
      rw [hscan]
      rcases ih with ⟨hzero, hnone⟩ | ⟨m, hm, hpos, hset, habove⟩
      · exact .inl ⟨hzero, fun j hj => hclear j hj (hnone j)⟩
      · exact .inr ⟨m, by omega, hpos, hset, fun j hlo hj => hclear j hj (habove j hlo)⟩

/-- `Hsb` of a byte that is not zero is one more than the index of its highest set bit (R90). -/
theorem hsb_of_ne_zero {b : Byte} (hb : b ≠ 0) :
    ∃ k < 8, hsb b = k + 1 ∧ b.getLsbD k = true ∧ ∀ j, k < j → b.getLsbD j = false := by
  rcases hsbFrom_cases b 8 with ⟨-, hnone⟩ | ⟨k, hk, hpos, hset, habove⟩
  · refine absurd (BitVec.eq_of_getLsbD_eq fun j hj => ?_) hb
    simpa using hnone j hj
  · refine ⟨k, hk, hpos, hset, fun j hj => ?_⟩
    by_cases hj8 : j < 8
    · exact habove j hj hj8
    · exact b.getLsbD_of_ge j (by omega)

/-! ## FROMARRAY -/

/-- FROMARRAY of an accepted frame rebuilds the words, sets WP from the last byte, and answers it (R93). -/
theorem exec_fromarray_of_idle {s t : State} {l : Word} {k : Nat} (hidle : s.Idle) (hpos : 1 ≤ l.toNat)
    (hl : l.toNat ≤ s.cfg.fcap.toNat) (hlast : s.frameByte (l.toNat - 1) ≠ 0) (hhsb : hsb (s.frameByte (l.toNat - 1)) = k + 1)
    (ht : loadFrame { s with live := true, capw := BitVec.ofNat 32 (wordsFor l), rp := 0 } l.toNat (wordsFor l) = .ok t) :
    exec (.fromarray l) s =
      .next (respond { t with wp := BitVec.ofNat 32 ((l.toNat - 1) * 8 + k) } statusOk (BitVec.ofNat 32 ((l.toNat - 1) * 8 + k))) := by
  refine (command_checkNotLive_of_idle hidle _).trans ?_
  rw [checkFrameSize_ok hl, ok_bind, if_neg (by omega), memRead_ok (by omega), ok_bind, if_neg hlast]
  simp only [ht, hhsb, Nat.add_sub_cancel, ok_bind, pure_eq_ok, complete_ok]

/-- Settles O46: the rebuilt words hold the source's bytes, zero from `length` up, and R5 keeps the recovered WP below `2^32`. -/
theorem fromarrayRebuildsTheBuffer : Obligations.FromarrayRebuildsTheBuffer := by
  intro s l hs hidle hpos hl hlast
  obtain ⟨-, -, hfcap, hwcap⟩ := hs.cfg_wf
  have hwords : wordsFor l = (l.toNat + 3) / 4 := rfl
  have hfits : wordsFor l ≤ s.cfg.wcap.toNat := by omega
  obtain ⟨t, ht, hbytes, habove⟩ :=
    loadFrame_ok (s := { s with live := true, capw := BitVec.ofNat 32 (wordsFor l), rp := 0 }) hl hfits
  obtain ⟨k, hk, hhsb, hset, hclear⟩ := hsb_of_ne_zero hlast
  have hexec := exec_fromarray_of_idle hidle hpos hl hlast hhsb ht
  have hcapw : t.capw.toNat = wordsFor l := by rw [loadFrame_eq_ok ht]; exact wordsFor_toNat l
  refine ⟨_, k, hexec, by rw [loadFrame_eq_ok ht]; rfl, rfl, hcapw, hk, hset, hclear, ?_, fun j hj => ?_, fun p hlo hhi => ?_,
    fun i hi => habove i (hcapw ▸ hi)⟩
  · change (BitVec.ofNat 32 ((l.toNat - 1) * 8 + k)).toNat = _
    rw [BitVec.toNat_ofNat]
    omega
  · have hbyte := hbytes j (by omega)
    rwa [State.paddedByte, if_pos hj] at hbyte
  · change p < 32 * t.capw.toNat at hhi
    have hbyte := hbytes (p / 8) (by omega) (p % 8) (by omega)
    rw [State.paddedByte, if_neg (by omega), Nat.div_add_mod] at hbyte
    exact hbyte.trans (by simp)

end Sys2Proof.Machine

/-! SUPPORT. The encoding family (spec R41 to R48): the decoder and the encoder are inverse on the legal words, the decoder and the opcode
map's match and mask call the same words legal, and what a step does with a legal and with an illegal word. -/

namespace Sys2Proof

/-! ## Decoding what was encoded -/

theorem ifReservedZero_eq_ok_iff {op : Byte} {ok : Bool} {i j : Instr} :
    ifReservedZero op ok i = .ok j ↔ ok = true ∧ i = j := by
  cases ok <;> simp [ifReservedZero]

/-- Decoding the word of a command gives the command back: its opcode selects its own arm, and the fields that carry no operand are
zero (R42). -/
theorem decode_encode {i : Instr} (hi : i.WellFormed) : decode (encode i) = .ok i := by
  cases i with
  | rdcsr n =>
    have hn : n ≤ 6 := of_decide_eq_true hi
    simpa [encode, decode] using hn
  | new | add | read | peek => simp [encode, decode, ifReservedZero]
  | addbool | addbyte | addshort | addushort | adduint | addint | toarray | fromarray => simp [encode, decode, ifReservedZero]
  | release | clear | getlen | isfin | readbool | peekbool | readbyte | peekbyte | readshort | peekshort | readushort | peekushort
  | readuint | peekuint | readint | peekint => rfl

/-- Settles O2, by cases on the command. -/
theorem decodeEncodeRoundTrip : Obligations.DecodeEncodeRoundTrip :=
  fun _ => decode_encode

/-! ## Encoding what was decoded -/

/-- RDCSR's arm of the decoder accepts the words with zero `aux` and `imm` and a CSR number that exists (R45 (b), (c)). -/
theorem decode_rdcsr_eq_ok_iff {w : CommandWord} {i : Instr} (hop : opField w = 0x03) :
    decode w = .ok i ↔ (auxField w = 0 ∧ immField w = 0) ∧ nField w ≤ 6 ∧ .rdcsr (nField w) = i := by
  simp only [decode, hop, Bool.and_eq_true, beq_iff_eq]
  by_cases hzero : auxField w = 0#16 ∧ immField w = 0#32
  · by_cases hn : nField w ≤ 6#8 <;> simp [hzero, hn]
  · simp [hzero]

/-- Each arm of the decoder accepts only zeros in the fields that its command's word leaves out (R45 (b)), and RDCSR's arm only the CSR
numbers that exist (R45 (c)). -/
theorem encode_of_decode_commandWord {op n : Byte} {aux : Half} {imm : Word} {i : Instr}
    (h : decode (commandWord op n aux imm) = .ok i) : encode i = commandWord op n aux imm ∧ i.WellFormed := by
  by_cases hop : op = 0x03
  · subst hop
    rw [decode_rdcsr_eq_ok_iff (opField_commandWord _ _ _ _), nField_commandWord, auxField_commandWord, immField_commandWord] at h
    obtain ⟨⟨rfl, rfl⟩, hn, rfl⟩ := h
    exact ⟨rfl, decide_eq_true hn⟩
  simp only [decode, opField_commandWord, nField_commandWord, auxField_commandWord, immField_commandWord] at h
  -- The arms stand in the order of the opcode map; the third is RDCSR's, the last an opcode that no row has.
  split at h
  case h_3 => exact absurd rfl hop
  case h_30 => cases h
  all_goals
    obtain ⟨hzero, rfl⟩ := ifReservedZero_eq_ok_iff.1 h
    simp only [Bool.and_eq_true, beq_iff_eq] at hzero
    exact ⟨by simp [encode, hzero], rfl⟩

/-- Settles O3: a word is the word of its four fields. -/
theorem encodeDecodeRoundTrip : Obligations.EncodeDecodeRoundTrip := by
  intro w i h
  rw [← commandWord_fields w] at h ⊢
  exact encode_of_decode_commandWord h

/-- Settles O1: the words are literals, and the decoder is run on each. -/
theorem specWordsDecode : Obligations.SpecWordsDecode :=
  ⟨rfl, rfl, rfl, rfl, rfl, rfl, rfl, rfl, rfl, rfl, rfl, rfl⟩

/-! ## The decoder against the opcode map -/

/-- R45 (b): the fields of `w` that carry no operand in the format are zero (R42). -/
def Format.ReservedZero (w : CommandWord) : Format → Prop
  | .Z => nField w = 0 ∧ auxField w = 0 ∧ immField w = 0
  | .W | .C => auxField w = 0 ∧ immField w = 0
  | .WI => auxField w = 0
  | .I => nField w = 0 ∧ auxField w = 0
  | .AI => nField w = 0

/-- The mask of a format: `op` and the fields that carry no operand (R42, R44). -/
def Format.mask : Format → CommandWord
  | .Z => commandWord 0xFF 0xFF 0xFFFF 0xFFFFFFFF
  | .W | .C => commandWord 0xFF 0 0xFFFF 0xFFFFFFFF
  | .WI => commandWord 0xFF 0 0xFFFF 0
  | .I => commandWord 0xFF 0xFF 0xFFFF 0
  | .AI => commandWord 0xFF 0xFF 0 0

/-- The mask of every row is its format's, and its fixed bits are its opcode and zeros. -/
theorem opcodeTable_mask_match : ∀ r ∈ opcodeTable, r.mask = r.format.mask ∧ r.matchBits = commandWord r.op 0 0 0 := by
  decide

theorem opcodeTable_op_nodup : (opcodeTable.map OpcodeRow.op).Nodup := by
  decide

theorem commandWord_inj {a a' b b' : Byte} {c c' : Half} {d d' : Word} :
    commandWord a b c d = commandWord a' b' c' d' ↔ a = a' ∧ b = b' ∧ c = c' ∧ d = d' := by
  constructor
  · intro h
    exact ⟨by simpa using congrArg opField h, by simpa using congrArg nField h, by simpa using congrArg auxField h,
      by simpa using congrArg immField h⟩
  · rintro ⟨rfl, rfl, rfl, rfl⟩; rfl

/-- A word under a format's mask is its opcode and zeros exactly where its reserved fields are zero. -/
theorem and_mask_eq_iff (w : CommandWord) (f : Format) :
    w &&& f.mask = commandWord (opField w) 0 0 0 ↔ f.ReservedZero w := by
  have hbyte : ∀ b : Byte, b &&& 0xFF#8 = b := fun _ => BitVec.and_allOnes
  have hhalf : ∀ a : Half, a &&& 0xFFFF#16 = a := fun _ => BitVec.and_allOnes
  have hword : ∀ v : Word, v &&& 0xFFFFFFFF#32 = v := fun _ => BitVec.and_allOnes
  conv_lhs => rw [← commandWord_fields w]
  cases f <;> simp [Format.mask, Format.ReservedZero, commandWord_and, commandWord_inj, hbyte, hhalf, hword]

/-- A word with a row's opcode has the row's fixed bits exactly where the reserved fields of the row's format are zero. -/
theorem and_row_mask_eq_iff {w : CommandWord} {r : OpcodeRow} (hr : r ∈ opcodeTable) (hop : r.op = opField w) :
    w &&& r.mask = r.matchBits ↔ r.format.ReservedZero w := by
  obtain ⟨hmask, hmatch⟩ := opcodeTable_mask_match r hr
  rw [hmask, hmatch, hop]
  exact and_mask_eq_iff w r.format

/-- R45 in the affirmative: a row has the opcode, the word has the fixed bits of every such row, and the CSR number of RDCSR exists. -/
theorem illegalWord_eq_false_iff {w : CommandWord} :
    illegalWord w = false ↔ (∃ r ∈ opcodeTable, r.op = opField w)
      ∧ (∀ r ∈ opcodeTable, r.op = opField w → w &&& r.mask = r.matchBits) ∧ (opField w = 0x03 → nField w ≤ 6) := by
  simp [illegalWord, and_assoc]

/-- On a word with a row's opcode the rule of R45 asks for the row's reserved fields (b) and RDCSR's CSR number (c): no other row has
the opcode. -/
theorem illegalWord_row_eq_false_iff {w : CommandWord} {r : OpcodeRow} (hr : r ∈ opcodeTable) (hop : r.op = opField w) :
    illegalWord w = false ↔ r.format.ReservedZero w ∧ (opField w = 0x03 → nField w ≤ 6) := by
  rw [illegalWord_eq_false_iff, ← and_row_mask_eq_iff hr hop]
  constructor
  · rintro ⟨-, hfixed, hcsr⟩
    exact ⟨hfixed r hr hop, hcsr⟩
  · rintro ⟨hfixed, hcsr⟩
    refine ⟨⟨r, hr, hop⟩, fun q hq hqop => ?_, hcsr⟩
    obtain rfl : q = r := List.inj_on_of_nodup_map opcodeTable_op_nodup hq hr (hqop.trans hop.symm)
    exact hfixed

/-- The opcode of every command stands in the opcode map. -/
theorem exists_row_of_encode (i : Instr) : ∃ r ∈ opcodeTable, r.op = opField (encode i) := by
  cases i <;> (simp only [encode, opField_commandWord]; decide)

/-- On a word with a row's opcode the decoder asks for the same: RDCSR's arm for both conditions, the arm of any other row for the
reserved fields of the row's format. -/
theorem decode_row_ok_iff {w : CommandWord} {r : OpcodeRow} (hr : r ∈ opcodeTable) (hop : r.op = opField w) :
    (∃ i, decode w = .ok i) ↔ r.format.ReservedZero w ∧ (opField w = 0x03 → nField w ≤ 6) := by
  by_cases hcsr : opField w = 0x03
  · have hformat : r.format = .C := (show ∀ q ∈ opcodeTable, q.op = 0x03 → q.format = .C by decide) r hr (hop.trans hcsr)
    simp [decode_rdcsr_eq_ok_iff hcsr, hformat, Format.ReservedZero, hcsr]
  · simp only [decode, ← hop]
    rw [← hop] at hcsr
    fin_cases hr
    on_goal 3 => exact absurd rfl hcsr
    all_goals simp [Format.ReservedZero, ifReservedZero_eq_ok_iff, and_assoc]

/-- Settles O4: the decoder and the rule find the word's row by its opcode, and ask the same of the row. -/
theorem decoderRejectsExactlyIllegalWords : Obligations.DecoderRejectsExactlyIllegalWords := by
  intro w
  constructor
  · rintro ⟨i, hi⟩
    obtain ⟨henc, -⟩ := encodeDecodeRoundTrip w i hi
    obtain ⟨r, hr, hop⟩ := exists_row_of_encode i
    rw [henc] at hop
    exact (illegalWord_row_eq_false_iff hr hop).2 ((decode_row_ok_iff hr hop).1 ⟨i, hi⟩)
  · intro h
    obtain ⟨⟨r, hr, hop⟩, -⟩ := illegalWord_eq_false_iff.1 h
    exact (decode_row_ok_iff hr hop).2 ((illegalWord_row_eq_false_iff hr hop).1 h)

end Sys2Proof

namespace Sys2Proof.Machine

/-! ## Steps -/

/-- Settles O11: the decoder rejects the word, and an illegal command of an engine that is not dead raises IllegalCommand. -/
theorem illegalWordsRaiseIllegalCommand : Obligations.IllegalWordsRaiseIllegalCommand := by
  intro s w rest hhost hfatal hillegal
  rw [step_command hhost]
  cases hdec : decode w with
  | ok i =>
    have hlegal := (decoderRejectsExactlyIllegalWords w).1 ⟨i, hdec⟩
    exact absurd (hillegal.symm.trans hlegal) nofun
  | error e =>
    rw [issue_of_decode_error hdec, illegalCommand_eq, if_neg (by simp [hfatal])]
    rfl

/-- Settles O6: placing a word only puts it in front of the host's moves, and the step takes it off again. -/
theorem placedCommandRuns : Obligations.PlacedCommandRuns := by
  intro s i hi
  have hword : BitVec.ofNat 64 ((encode i).toNat % 2 ^ 64) = encode i := by
    rw [Nat.mod_eq_of_lt (encode i).isLt, BitVec.ofNat_toNat, BitVec.setWidth_eq]
  rw [step_command (withFetchWord_host s 64 _), hword, issue_of_decode_ok (decode_encode hi)]
  rfl

end Sys2Proof.Machine

/-! SUPPORT. The lifecycle and system family (spec R52 to R55, R61, and the limits of R95, R98, R99): which check each command begins with,
what acquires and frees the buffer, and how a request that does not fit ends. -/

namespace Sys2Proof.Machine

/-! ## The check a command begins with -/

/-- Every command but NEW, FROMARRAY and RDCSR begins with CheckLive (R98). -/
theorem exec_eq_checkLive {i : Instr} (hacq : i.acquires = false) (hrdcsr : i.isRdcsr = false) (s : State) :
    ∃ body, exec i s = command s (checkLive s >>= fun _ => body) := by
  cases i with
  | new | fromarray => cases hacq
  | rdcsr => cases hrdcsr
  | _ => exact ⟨_, rfl⟩

/-- NEW and FROMARRAY begin with CheckNotLive (R98). -/
theorem exec_eq_checkNotLive {i : Instr} (hacq : i.acquires = true) (s : State) :
    ∃ body, exec i s = command s (checkNotLive s >>= fun _ => body) := by
  cases i with
  | new | fromarray => exact ⟨_, rfl⟩
  | _ => cases hacq

/-- What an exception leaves, by its code and class (R96). -/
theorem raise_eq_afterException (s : State) (e : Exc) : raise s e = s.afterException e.code e.isFatal := rfl

section Raises

variable {s : State} {body : Except Stop (State × Word)} {e : Exc}

theorem command_checkLive_raises (h : s.Ready) (hbody : body = throwExc e) :
    command s (checkLive s >>= fun _ => body) = .next (s.afterException e.code e.isFatal) := by
  rw [command_checkLive_of_ready h, hbody, complete_throwExc, raise_eq_afterException]

theorem command_checkNotLive_raises (h : s.Idle) (hbody : body = throwExc e) :
    command s (checkNotLive s >>= fun _ => body) = .next (s.afterException e.code e.isFatal) := by
  rw [command_checkNotLive_of_idle h, hbody, complete_throwExc, raise_eq_afterException]

end Raises

/-! ## RELEASE and CLEAR -/

/-- Settles O23: on a live buffer both commands pass their one check. -/
theorem releaseAndClear : Obligations.ReleaseAndClear :=
  fun _ hready => ⟨command_checkLive_of_ready hready _, command_checkLive_of_ready hready _⟩

/-! ## Requests beyond the memories -/

/-- Settles O16: the size check stands right after the lifecycle check in each of the three commands. -/
theorem resourceLimitTraps : Obligations.ResourceLimitTraps := by
  refine ⟨fun s c ident hidle hsize => ?_, fun s d hready hsize => ?_, fun s l hidle hsize => ?_⟩
  · exact command_checkNotLive_raises (e := .resourceLimit) hidle (if_pos hsize)
  · refine command_checkLive_raises (e := .resourceLimit) hready ?_
    rw [checkFrameSize_error hsize, throwExc_bind]
  · refine command_checkNotLive_raises (e := .resourceLimit) hidle ?_
    rw [checkFrameSize_error hsize, throwExc_bind]

/-! ## How many groups a varint has -/

/-- A number of more than one group has one group more than the number without its low seven bits (R83 (b)). -/
theorem groupCount_of_ge {n : Nat} (hlo : 2 ^ 7 ≤ n) (hhi : n < 2 ^ 35) : groupCount n = groupCount (n / 2 ^ 7) + 1 := by
  unfold groupCount
  split_ifs <;> omega

theorem shiftRight_seven_eq_zero_iff (v : Word) : v >>> 7 = 0 ↔ v.toNat < 2 ^ 7 := by
  rw [← BitVec.toNat_inj, BitVec.toNat_ushiftRight, Nat.shiftRight_eq_div_pow]
  change v.toNat / 2 ^ 7 = 0 ↔ _
  omega

/-- With a bound on the groups that the value fits, `VarintGroups` makes as many as the value's length asks for (R78, R83 (b)). -/
theorem varintGroupsFrom_length {k : Nat} {v : Word} (hv : v.toNat < 2 ^ (7 * (k + 1))) :
    (varintGroupsFrom (k + 1) v).length = groupCount v.toNat := by
  induction k generalizing v with
  | zero =>
    rw [varintGroupsFrom, if_pos ((shiftRight_seven_eq_zero_iff v).2 hv), groupCount, if_pos hv, List.length_singleton]
  | succ k ih =>
    rw [varintGroupsFrom]
    by_cases hlast : v.toNat < 2 ^ 7
    · rw [if_pos ((shiftRight_seven_eq_zero_iff v).2 hlast), groupCount, if_pos hlast, List.length_singleton]
    · have hrest : (v >>> 7).toNat = v.toNat / 2 ^ 7 := by
        rw [BitVec.toNat_ushiftRight, Nat.shiftRight_eq_div_pow]
      have hfits : (v >>> 7).toNat < 2 ^ (7 * (k + 1)) := by
        rw [hrest]
        exact Nat.div_lt_of_lt_mul (by rwa [← Nat.pow_add, Nat.add_comm 7])
      have hv32 := v.isLt
      rw [if_neg (mt (shiftRight_seven_eq_zero_iff v).1 hlast), List.length_cons, ih hfits, hrest,
        groupCount_of_ge (n := v.toNat) (by omega) (by omega)]

theorem varintGroups_length (v : Word) : (varintGroups v).length = groupCount v.toNat :=
  varintGroupsFrom_length (k := 4) (v.isLt.trans (by decide))

/-! ## The operands of the varint adds -/

/-- The zig-zag code of a word is that of the signed number it stands for (R84): its sign bit spread over 32 bits leaves or complements
the doubled word. -/
theorem zigZag_toNat (v : Word) : ((zigZag v).toNat : Int) = zigZagCode v.toInt := by
  have hv := v.isLt
  have hdouble : (v <<< 1).toNat = 2 * v.toNat % 2 ^ 32 := by
    rw [BitVec.toNat_shiftLeft, Nat.shiftLeft_eq, Nat.mul_comm, Nat.pow_one]
  cases hsign : v.msb with
  | true =>
    have hneg : 2 ^ 31 ≤ v.toNat := by simpa [BitVec.msb_eq_decide] using hsign
    have hint : v.toInt = v.toNat - 2 ^ 32 := by rw [BitVec.toInt_eq_msb_cond, if_pos hsign]; rfl
    have hspread : v.sshiftRight 31 = BitVec.allOnes 32 := by
      have hzero : (~~~v) >>> 31 = 0 := by
        apply BitVec.eq_of_toNat_eq
        rw [BitVec.toNat_ushiftRight, Nat.shiftRight_eq_div_pow, BitVec.toNat_not]
        exact Nat.div_eq_of_lt (by omega)
      rw [BitVec.sshiftRight_eq_of_msb_true hsign, hzero]
      rfl
    rw [zigZag, zigZagCode, hspread, BitVec.xor_allOnes, BitVec.toNat_not, hdouble, hint, if_neg (by omega)]
    omega
  | false =>
    have hpos : v.toNat < 2 ^ 31 := by simpa [BitVec.msb_eq_decide] using hsign
    have hint : v.toInt = v.toNat := by rw [BitVec.toInt_eq_msb_cond, hsign]; rfl
    have hspread : v.sshiftRight 31 = 0#32 := by
      rw [BitVec.sshiftRight_eq_of_msb_false hsign]
      apply BitVec.eq_of_toNat_eq
      rw [BitVec.toNat_ushiftRight, Nat.shiftRight_eq_div_pow]
      exact Nat.div_eq_of_lt (by omega)
    rw [zigZag, zigZagCode, hspread, BitVec.xor_zero, hdouble, hint, if_pos (by omega)]
    omega

theorem zigZag_toNat_eq (v : Word) : (zigZag v).toNat = (zigZagCode v.toInt).toNat := by
  rw [← zigZag_toNat, Int.toNat_natCast]

/-- ADDSHORT's operand is the signed number of the low half of `imm` (R72). -/
theorem shortOperand_toInt (imm : Word) : (shortOperand imm).toInt = (imm.setWidth 16 : Half).toInt :=
  BitVec.toInt_signExtend_of_le (by decide)

/-- ADDUSHORT's operand is the number of the low half of `imm` (R75). -/
theorem ushortOperand_toNat (imm : Word) : (ushortOperand imm).toNat = imm.toNat % 2 ^ 16 := by
  rw [ushortOperand, BitVec.toNat_setWidth, BitVec.toNat_setWidth]
  omega

/-! ## Writes that do not fit -/

section NoRoom

variable {s : State}

theorem addField_error {n : Nat} (h : 32 * s.capw.toNat < s.wp.toNat + n) (v : Word) :
    addField s n v = throwExc .capacityExceeded := by
  rw [addField, checkRoom_error h, throwExc_bind]

/-- A varint add checks the room for all its groups before it writes the first (R80). -/
theorem command_addVarint_raises (hready : s.Ready) {v : Word} (h : 32 * s.capw.toNat < s.wp.toNat + 8 * groupCount v.toNat) :
    command s (addVarint s v) = .next (s.afterException 0x84 true) := by
  have hfull : checkRoom s (8 * (varintGroups v).length) = throwExc .capacityExceeded :=
    checkRoom_error (by rwa [varintGroups_length])
  exact command_checkLive_raises (e := .capacityExceeded) hready (congrArg (· >>= _) hfull)

end NoRoom

/-- Settles O17: each command's room check counts all the bits it would write, and stands before the first write. -/
theorem capacityExceededTraps : Obligations.CapacityExceededTraps := by
  refine ⟨fun s n v hready hn1 hn hfull => ?_, fun s v hready hfull => ?_, fun s v hready hfull => ?_, fun s v hready hfull => ?_,
    fun s v hready hfull => ?_, fun s v hready hfull => ?_, fun s v hready hfull => ?_, fun s d hready hd hfull => ?_,
    fun s ident hidle hwcap => ?_⟩
  · refine command_checkLive_raises (e := .capacityExceeded) hready ?_
    rw [checkWidth_ok hn1 hn, ok_bind, addField_error hfull]
  · exact command_checkLive_raises (e := .capacityExceeded) hready (addField_error hfull v)
  · exact command_checkLive_raises (e := .capacityExceeded) hready (addField_error hfull v)
  · exact command_addVarint_raises hready hfull
  · exact command_addVarint_raises hready (by rwa [ushortOperand_toNat])
  · exact command_addVarint_raises hready (by rwa [zigZag_toNat_eq])
  · exact command_addVarint_raises hready (by rwa [zigZag_toNat_eq, shortOperand_toInt])
  · refine command_checkLive_raises (e := .capacityExceeded) hready ?_
    rw [checkFrameSize_ok hd, ok_bind, checkRoom_error hfull, throwExc_bind]
  · refine command_checkNotLive_raises (e := .capacityExceeded) hidle ?_
    rw [if_neg (by change ¬ 0 + 1 > s.cfg.wcap.toNat; omega)]
    rfl

/-! ## NEW -/

/-- Bit `k` of word `i` is the bit at position `32 * i + k` (R28). -/
theorem State.word_getLsbD (s : State) (i : Nat) {k : Nat} (hk : k < 32) : (s.word i).getLsbD k = s.bit (32 * i + k) := by
  have hidx : wordIndex (32 * i + k) = i := by simp only [wordIndex]; omega
  have hoff : bitOffset (32 * i + k) = k := by simp only [bitOffset]; omega
  rw [State.bit, hidx, hoff]

/-- A field written at the start of the buffer makes word 0 the zero-extended field, and word 1 zero (R52, R56). -/
theorem State.Appends.words_of_wp_zero {s t : State} {n : Nat} {v : BitVec n} (hn : n ≤ 32) (hwp : s.wp = 0)
    (h : s.Appends t n (v.setWidth 32)) : t.word 0 = v.setWidth 32 ∧ t.word 1 = 0 ∧ ∀ i, 2 ≤ i → t.word i = s.word i := by
  obtain ⟨-, -, hfield, hclear, hwords⟩ := h
  simp only [hwp, BitVec.toNat_ofNat, Nat.zero_mod, Nat.zero_div, Nat.zero_add, BitVec.ofNat_eq_ofNat] at hfield hclear hwords
  refine ⟨BitVec.eq_of_getLsbD_eq fun k hk => ?_, BitVec.eq_of_getLsbD_eq fun k hk => ?_, fun i hi => hwords i (by omega) (by omega)⟩
  · rw [t.word_getLsbD 0 hk, Nat.mul_zero, Nat.zero_add]
    by_cases hin : k < n
    · exact hfield k hin
    · rw [hclear k (by omega) (by omega), BitVec.getLsbD_setWidth, v.getLsbD_of_ge k (by omega), Bool.and_false]
  · rw [t.word_getLsbD 1 hk, hclear _ (by omega) (by omega)]
    simp

theorem State.acquire_wp_toNat (s : State) (capw : Nat) : (s.acquire capw).wp.toNat = 0 := rfl

/-- NEW that fits acquires the buffer and writes the identifier (R52). -/
theorem exec_new_of_idle {s t : State} {c : Word} {ident : Half} (hidle : s.Idle) (hpos : 1 ≤ c.toNat)
    (hfits : wordsFor c + 1 ≤ s.cfg.wcap.toNat) (ht : bitAdd (s.acquire (wordsFor c)) 16 (ident.setWidth 32) = .ok t) :
    exec (.new c ident) s = .next (respond t statusOk 0) := by
  have hroom : ¬ 16 > 32 * wordsFor c := by simp only [wordsFor]; omega
  refine (command_checkNotLive_of_idle hidle _).trans ?_
  rw [if_neg (by omega), if_neg hroom]
  change complete s (bitAdd (s.acquire (wordsFor c)) 16 (ident.setWidth 32) >>= fun u => pure (u, 0)) = _
  rw [ht, ok_bind, pure_eq_ok, complete_ok]

/-- Settles O22: the acquire sets both cursors to 0, so the identifier is the field that `BitAdd` appends at bit position 0. -/
theorem newAcquiresBuffer : Obligations.NewAcquiresBuffer := by
  intro s c ident hidle hpos hfits
  have hguard : 1 < s.cfg.wcap.toNat := by omega
  obtain ⟨t, ht⟩ : ∃ t, bitAdd (s.acquire (wordsFor c)) 16 (ident.setWidth 32) = .ok t :=
    ⟨_, bitAdd_ok (by rw [State.acquire_wp_toNat]; exact hguard)⟩
  have happends := bitAdd_appends (by decide) (by rw [State.acquire_wp_toNat]; decide) ht
  have hwords := happends.words_of_wp_zero (by decide) rfl
  have hcapw : t.capw.toNat = wordsFor c := by rw [bitAdd_capw ht]; exact wordsFor_toNat c
  refine ⟨_, exec_new_of_idle hidle hpos hfits ht, rfl, ?_, hcapw, hwords⟩
  rw [bitAdd_eq ht]
  rfl

/-! ## The lifecycle law -/

section Law

variable {i : Instr} {s t : State} {r : Word}

/-- A command that answers OK has succeeded: neither Dead nor an exception has that status. -/
theorem exec_ok_succeeds (h : exec i s = .next t) (hok : t.Answers statusOk r) : ∃ u, Succeeds i s u ∧ t = respond u statusOk r := by
  rcases exec_ends h with ⟨-, rfl⟩ | ⟨-, e, rfl⟩ | ⟨u, r', hu, rfl⟩
  all_goals obtain ⟨hstatus, hresult⟩ := (responseWord_inj ..).1 (Option.some.inj hok)
  · exact absurd hstatus (by decide)
  · exact absurd hstatus e.code_ne_statusOk
  · exact ⟨u, hu, hresult ▸ rfl⟩

/-- Only NEW, FROMARRAY and RELEASE write LIVE (R16). -/
theorem Succeeds.live_eq {u : State} (h : Succeeds i s u) (hacq : i.acquires = false) (hrelease : i ≠ .release) : u.live = s.live := by
  cases h with
  | unchanged | advance | clear => rfl
  | field _ _ _ _ h => exact bitAdd_live h
  | groups _ _ _ h => rw [bitAddBytes_eq_ok h]
  | new hi => subst hi; cases hacq
  | release hi => exact absurd hi hrelease
  | toarray _ _ _ ht h =>
    have hsentinel := bitAdd_live ht
    exact (congrArg State.live (copyWords_eq_ok h)).trans hsentinel
  | fromarray hi => subst hi; cases hacq

/-- A command that begins with CheckNotLive and answers OK found no live buffer. -/
theorem not_live_of_acquires (hacq : i.acquires = true) (h : exec i s = .next t) (hok : t.Answers statusOk r) : s.live = false := by
  obtain ⟨body, hbody⟩ := exec_eq_checkNotLive hacq s
  obtain ⟨-, u, hu, -⟩ := command_ok_cases (hbody ▸ h) hok
  obtain ⟨_, hlive, -⟩ := bind_eq_ok.1 hu
  exact checkNotLive_eq_ok hlive

/-- A command that begins with CheckLive and answers OK found a live buffer. -/
theorem live_of_needs_buffer (hacq : i.acquires = false) (hrdcsr : i.isRdcsr = false) (h : exec i s = .next t)
    (hok : t.Answers statusOk r) : s.live = true := by
  obtain ⟨body, hbody⟩ := exec_eq_checkLive hacq hrdcsr s
  obtain ⟨-, u, hu, -⟩ := command_ok_cases (hbody ▸ h) hok
  obtain ⟨_, hlive, -⟩ := bind_eq_ok.1 hu
  exact checkLive_eq_ok hlive

/-- NEW and FROMARRAY set LIVE before they write the buffer, and no write to it clears LIVE. -/
theorem live_after_acquires (hacq : i.acquires = true) (h : exec i s = .next t) (hok : t.Answers statusOk r) : t.live = true := by
  cases i with
  | new c ident =>
    obtain ⟨-, u, hu, rfl⟩ := command_ok_cases h hok
    obtain ⟨_, -, hu⟩ := bind_eq_ok.1 hu
    obtain ⟨-, hu⟩ := ite_throwExc_eq_ok hu
    obtain ⟨-, hu⟩ := ite_throwExc_eq_ok hu
    obtain ⟨v, hv, hu⟩ := bind_eq_ok.1 hu
    cases hu
    exact bitAdd_live hv
  | fromarray l =>
    obtain ⟨-, u, hu, rfl⟩ := command_ok_cases h hok
    obtain ⟨_, -, hu⟩ := bind_eq_ok.1 hu
    obtain ⟨_, -, hu⟩ := bind_eq_ok.1 hu
    obtain ⟨-, hu⟩ := ite_throwExc_eq_ok hu
    obtain ⟨last, -, hu⟩ := bind_eq_ok.1 hu
    obtain ⟨-, hu⟩ := ite_throwExc_eq_ok hu
    obtain ⟨v, hv, hu⟩ := bind_eq_ok.1 hu
    cases hu
    exact congrArg State.live (loadFrame_eq_ok hv)
  | _ => cases hacq

theorem not_live_after_release (h : exec .release s = .next t) (hok : t.Answers statusOk r) : t.live = false := by
  obtain ⟨-, u, hu, rfl⟩ := command_ok_cases h hok
  obtain ⟨_, -, hu⟩ := bind_eq_ok.1 hu
  cases hu
  rfl

end Law

/-- Settles O25: the check a command begins with says what it found, and LIVE changes with NEW, FROMARRAY and RELEASE only. -/
theorem lifecycleLaw : Obligations.LifecycleLaw := by
  intro i s t r h hok
  split_ifs with hacq hrelease hrdcsr
  · exact ⟨not_live_of_acquires hacq h hok, live_after_acquires hacq h hok⟩
  · subst hrelease
    exact ⟨live_of_needs_buffer rfl rfl h hok, not_live_after_release h hok⟩
  all_goals
    have hacq : i.acquires = false := by simpa using hacq
    obtain ⟨u, hu, rfl⟩ := exec_ok_succeeds h hok
    have hkept := hu.live_eq hacq hrelease
  · exact hkept
  · have hlive := live_of_needs_buffer hacq (by simpa using hrdcsr) h hok
    exact ⟨hlive, hkept.trans hlive⟩

end Sys2Proof.Machine

/-! SUPPORT. The raw bit family (spec R56 to R71, with R111): what GETLEN and ISFIN answer, where a fixed-width read ends that would pass WP,
what a fixed-width add appends and what a READ takes back of it, and why each read answers what its peek answers. -/

namespace Sys2Proof.Machine

/-! ## GETLEN and ISFIN -/

/-- The byte count of R62 is the rounded-up quotient. -/
theorem byteLength_eq_ceil {p : Nat} (hp : 1 ≤ p) : byteLength p = (p + 7) / 8 := by
  rw [byteLength]
  omega

section Queries

variable {s : State}

theorem exec_getlen_of_ready (h : s.Ready) (hwp : 1 ≤ s.wp.toNat) :
    exec .getlen s = .next (respond s statusOk (BitVec.ofNat 32 (byteLength s.wp.toNat))) := by
  refine (command_checkLive_of_ready h _).trans ?_
  rw [if_neg (by omega), pure_eq_ok, complete_ok]

theorem finished_iff : finished s = true ↔ s.rp.toNat = s.wp.toNat := by
  rw [finished, beq_iff_eq, BitVec.toNat_inj]

theorem exec_isfin_of_ready (h : s.Ready) : exec .isfin s = .next (respond s statusOk (if finished s then 1 else 0)) :=
  command_checkLive_of_ready h _

end Queries

/-- Settles O29: the count of the bytes fits the result, and the empty buffer is caught before it is counted. -/
theorem getlenCountsBytes : Obligations.GetlenCountsBytes := by
  refine ⟨fun s hready hwp => ⟨_, ?_, exec_getlen_of_ready hready hwp⟩, fun s hready hwp => ?_⟩
  · have hlt := s.wp.isLt
    rw [BitVec.toNat_ofNat, byteLength_eq_ceil hwp]
    omega
  · exact command_checkLive_raises (e := .lengthUndefined) hready (if_pos hwp)

/-- Settles O30: ISFIN's answer is `finished`, and that compares the cursors. -/
theorem isfinComparesTheCursors : Obligations.IsfinComparesTheCursors := by
  intro s hready
  refine ⟨fun heq => ?_, fun hne => ?_⟩
  · rw [exec_isfin_of_ready hready, if_pos (finished_iff.2 heq)]
    rfl
  · rw [exec_isfin_of_ready hready, if_neg (mt finished_iff.1 hne)]
    rfl

/-- Settles O49: TOARRAY counts the bytes of `WP + 1` bits, GETLEN those of `WP` bits. -/
theorem sentinelMayOpenAByte : Obligations.SentinelMayOpenAByte := by
  intro s d hs hready hd hwp hroom
  obtain ⟨a, ha, hgetlen⟩ := getlenCountsBytes.1 s hready hwp
  obtain ⟨u, htoarray, -, hanswer, -⟩ := toarrayWritesTheFrame s d hs hready hd hroom
  refine ⟨_, u, a, _, hgetlen, rfl, htoarray, hanswer, ?_⟩
  have hlt := s.wp.isLt
  rw [ha, BitVec.toNat_ofNat]
  split_ifs <;> omega

/-! ## Fetches that would pass WP -/

section Overrun

variable {s : State} {n : Nat}

theorem readField_error (h : s.wp.toNat < s.rp.toNat + n) : readField s n = throwExc .readOverrun := by
  rw [readField, checkAvail_error h, throwExc_bind]

theorem peekField_error (h : s.wp.toNat < s.rp.toNat + n) : peekField s n = throwExc .readOverrun := by
  rw [peekField, checkAvail_error h, throwExc_bind]

end Overrun

/-- Settles O18: CheckAvail stands before the fetch in each of the six commands. -/
theorem readOverrunTraps : Obligations.ReadOverrunTraps := by
  refine ⟨fun s n hready hn1 hn hover => ⟨?_, ?_⟩, fun s hready hover => ⟨?_, ?_⟩, fun s hready hover => ⟨?_, ?_⟩⟩
  · rw [exec_read_of_ready hready hn1 hn, readField_error hover, complete_throwExc]
    rfl
  · rw [exec_peek_of_ready hready hn1 hn, peekField_error hover, complete_throwExc]
    rfl
  · exact command_checkLive_raises (e := .readOverrun) hready (readField_error hover)
  · exact command_checkLive_raises (e := .readOverrun) hready (peekField_error hover)
  · exact command_checkLive_raises (e := .readOverrun) hready (readField_error hover)
  · exact command_checkLive_raises (e := .readOverrun) hready (peekField_error hover)

/-! ## The fixed-width adds -/

section Add

variable {s t : State}

theorem addField_ok {n : Nat} {v : Word} (hroom : s.wp.toNat + n ≤ 32 * s.capw.toNat) (ht : bitAdd s n v = .ok t) :
    addField s n v = .ok (t, 0) := by
  rw [addField, checkRoom_ok hroom, ok_bind, ht, ok_bind, pure_eq_ok]

theorem exec_add_of_ready {n : Byte} (h : s.Ready) (hn1 : 1 ≤ n.toNat) (hn : n.toNat ≤ 32) (v : Word) :
    exec (.add n v) s = complete s (addField s n.toNat v) := by
  refine (command_checkLive_of_ready h _).trans ?_
  rw [checkWidth_ok hn1 hn, ok_bind]

/-- The shared shape of the fixed-width adds, where the field fits: it answers OK, 0 and appends the field (R56, R58, R64). -/
theorem complete_addField_appends (hs : s.Inv) {n : Nat} (hn1 : 1 ≤ n) (hn : n ≤ 32)
    (hroom : s.wp.toNat + n ≤ 32 * s.capw.toNat) (v : Word) :
    ∃ t, complete s (addField s n v) = .next t ∧ t.Answers 0x00 0 ∧ t = { s with wp := t.wp, words := t.words, rsp := t.rsp }
      ∧ s.Appends t n v := by
  have hbits := hs.bits_lt
  obtain ⟨t, ht⟩ : ∃ t, bitAdd s n v = .ok t := ⟨_, bitAdd_ok (wordIndex_succ_lt_of_room hs.guardWordFits hn1 hroom)⟩
  have happends : s.Appends t n v := bitAdd_appends hn (by omega) ht
  refine ⟨respond t statusOk 0, ?_, rfl, ?_, happends⟩
  · rw [addField_ok hroom ht, complete_ok]
  · rw [bitAdd_eq ht]
    rfl

end Add

/-- Settles O26: past their checks the three commands are one `addField`, of `n`, 1 and 8 bits. -/
theorem fixedWidthAddsAppend : Obligations.FixedWidthAddsAppend := by
  refine ⟨fun s n v hs hready hn1 hn hroom => ?_, fun s v hs hready hroom => ?_, fun s v hs hready hroom => ?_⟩
  · rw [exec_add_of_ready hready hn1 hn]
    exact complete_addField_appends hs hn1 hn hroom v
  · have hexec : exec (.addbool v) s = complete s (addField s 1 v) := command_checkLive_of_ready hready _
    rw [hexec]
    exact complete_addField_appends hs (by decide) (by decide) hroom v
  · have hexec : exec (.addbyte v) s = complete s (addField s 8 v) := command_checkLive_of_ready hready _
    rw [hexec]
    exact complete_addField_appends hs (by decide) (by decide) hroom v

/-! ## An ADD and the READs after it -/

section RoundTrip

variable {s t : State} {n : Byte}

/-- A part of an appended field, `b` bits from its bit `a` on, is those bits of the value. -/
theorem State.Appends.part_toNat {m a b : Nat} {v r : Word} (h : s.Appends t m v) (hm : m ≤ 32) (hab : a + b ≤ m)
    (hr : t.HoldsField (s.wp.toNat + a) b r) : r.toNat = v.toNat / 2 ^ a % 2 ^ b := by
  obtain ⟨-, -, hfield, -⟩ := h
  refine Nat.eq_of_testBit_eq fun k => ?_
  rw [Nat.testBit_mod_two_pow, Nat.testBit_div_two_pow, BitVec.testBit_toNat, BitVec.testBit_toNat]
  by_cases hk : k < b
  · rw [hr k (by omega), Nat.add_assoc, hfield (a + k) (by omega), Nat.add_comm k a]
  · by_cases hk32 : k < 32
    · rw [hr k hk32]
      simp [hk]
    · rw [r.getLsbD_of_ge k (by omega)]
      simp [hk]

/-- An ADD that fits leaves an engine that runs on, with RP where it was and the field appended. -/
theorem exec_add_runs_on (hs : s.Inv) (hready : s.Ready) (hn1 : 1 ≤ n.toNat) (hn : n.toNat ≤ 32)
    (hroom : s.wp.toNat + n.toNat ≤ 32 * s.capw.toNat) (v : Word) :
    ∃ t, exec (.add n v) s = .next t ∧ t.Inv ∧ t.Ready ∧ t.rp = s.rp ∧ s.Appends t n.toNat v := by
  obtain ⟨t, ht, -, hframe, happends⟩ := fixedWidthAddsAppend.1 s n v hs hready hn1 hn hroom
  exact ⟨t, ht, (exec_ends ht).inv hs, by rw [hframe]; exact hready, by rw [hframe], happends⟩

/-- A READ below WP leaves an engine that runs on, with the same buffer and RP past the field it answers. -/
theorem exec_read_runs_on (hs : s.Inv) (hready : s.Ready) (hn1 : 1 ≤ n.toNat) (hn : n.toNat ≤ 32)
    (havail : s.rp.toNat + n.toNat ≤ s.wp.toNat) :
    ∃ t r, exec (.read n) s = .next t ∧ t.Answers 0x00 r ∧ s.HoldsField s.rp.toNat n.toNat r
      ∧ t.Inv ∧ t.Ready ∧ t.wp = s.wp ∧ t.words = s.words ∧ t.rp.toNat = s.rp.toNat + n.toNat := by
  obtain ⟨r, hfield, -, t, ht, hframe, hrp⟩ := rawReadsReturnTheField s n hs hready hn1 hn havail
  refine ⟨t, r, ht, ?_, hfield, (exec_ends ht).inv hs, ?_, ?_, ?_, hrp⟩
  all_goals rw [hframe]
  exact hready

theorem State.bit_congr (h : t.words = s.words) (p : Nat) : t.bit p = s.bit p := by
  rw [State.bit, State.word, h, State.bit, State.word]

end RoundTrip

/-- Settles O31: the READ's field is the whole of the appended one. -/
theorem addThenReadRoundTrip : Obligations.AddThenReadRoundTrip := by
  intro s n v hs hready hn1 hn hfin hroom
  obtain ⟨t, ht, hinv, hreadyt, hrp, happends⟩ := exec_add_runs_on hs hready hn1 hn hroom v
  have hrpt : t.rp.toNat = s.wp.toNat := by rw [hrp, hfin]
  have hwpt : t.wp.toNat = s.wp.toNat + n.toNat := happends.1
  obtain ⟨u, r, hu, hanswer, hfield, -, -, hwpu, -, hrpu⟩ := exec_read_runs_on (n := n) hinv hreadyt hn1 hn (by omega)
  rw [hrpt] at hfield
  refine ⟨t, u, r, ht, hu, hanswer, ?_, ?_⟩
  · rw [happends.part_toNat (a := 0) hn (by omega) hfield, Nat.pow_zero, Nat.div_one]
  · rw [← BitVec.toNat_inj, hwpu]
    omega

/-- Settles O32: the two READs take the two parts of the appended field, and the first changes no bit of the buffer. -/
theorem oneFieldReadsBackAsTwo : Obligations.OneFieldReadsBackAsTwo := by
  intro s n a b v hs hready ha hb hsum hn hfin hroom
  obtain ⟨t, ht, hinvt, hreadyt, hrp, happends⟩ := exec_add_runs_on hs hready (by omega) hn hroom v
  have hrpt : t.rp.toNat = s.wp.toNat := by rw [hrp, hfin]
  have hwpt : t.wp.toNat = s.wp.toNat + n.toNat := happends.1
  obtain ⟨u, x, hu, hx, hfieldx, hinvu, hreadyu, hwpu, hwords, hrpu⟩ :=
    exec_read_runs_on (n := a) hinvt hreadyt ha (by omega) (by omega)
  obtain ⟨w, y, hw, hy, hfieldy, -, -, hwpw, -, hrpw⟩ :=
    exec_read_runs_on (n := b) hinvu hreadyu hb (by omega) (by rw [hwpu]; omega)
  have hfieldy : t.HoldsField (s.wp.toNat + a.toNat) b.toNat y := fun k hk => by
    rw [hfieldy k hk, State.bit_congr hwords, hrpu, hrpt]
  rw [hrpt] at hfieldx
  refine ⟨t, u, w, x, y, ht, hu, hx, hw, hy, ?_, ?_, happends.part_toNat hn (by omega) hfieldy⟩
  · rw [← BitVec.toNat_inj, hwpw, hwpu]
    omega
  · rw [happends.part_toNat (a := 0) hn (by omega) hfieldx, Nat.pow_zero, Nat.div_one]

/-! ## A read and its peek -/

/-- A peek's algorithm and a read's, run from `s`, end alike: with one and the same result, the read in `s` but for RP. -/
abbrev ReadsAlike (s : State) : Except Stop (State × Word) → Except Stop (State × Word) → Prop :=
  Alike fun p q => q.1 = { s with rp := q.1.rp } ∧ q.2 = p.2

theorem peekField_readField (s : State) (n : Nat) : ReadsAlike s (peekField s n) (readField s n) :=
  Alike.same_bind fun _ _ => Alike.same_bind fun _ _ => .ok ⟨rfl, rfl⟩

theorem peekVarint_readVarint (s : State) (f : Word → Word) : ReadsAlike s (peekVarint s f) (readVarint s f) :=
  Alike.same_bind fun _ _ => Alike.same_bind fun _ _ => .ok ⟨rfl, rfl⟩

/-- The two commands of each kind run the same checks and the same fetch or scan (R65). -/
theorem exec_readsAlike {n : Byte} {pk rd : Instr} (h : (pk, rd) ∈ peekReadPairs n) (s : State) :
    ∃ x y, exec pk s = command s x ∧ exec rd s = command s y ∧ ReadsAlike s x y := by
  simp only [peekReadPairs, List.mem_cons, List.not_mem_nil, or_false, Prod.mk.injEq] at h
  rcases h with ⟨rfl, rfl⟩ | ⟨rfl, rfl⟩ | ⟨rfl, rfl⟩ | ⟨rfl, rfl⟩ | ⟨rfl, rfl⟩ | ⟨rfl, rfl⟩ | ⟨rfl, rfl⟩
  · exact ⟨_, _, rfl, rfl, Alike.same_bind fun _ _ => Alike.same_bind fun _ _ => peekField_readField s n.toNat⟩
  · exact ⟨_, _, rfl, rfl, Alike.same_bind fun _ _ => peekField_readField s 1⟩
  · exact ⟨_, _, rfl, rfl, Alike.same_bind fun _ _ => peekField_readField s 8⟩
  all_goals exact ⟨_, _, rfl, rfl, peekVarint_readVarint s _⟩

/-- Where the peek answers OK, the read answers the same and moves RP only. -/
theorem command_reads_what_peek_answers {s t : State} {r : Word} {x y : Except Stop (State × Word)} (hxy : ReadsAlike s x y)
    (h : command s x = .next t) (hok : t.Answers statusOk r) :
    ∃ u, command s y = .next u ∧ u = { s with rp := u.rp, rsp := t.rsp } := by
  obtain ⟨hfatal, u, rfl, rfl⟩ := command_ok_cases h hok
  cases hxy with
  | @ok _ q hq =>
    obtain ⟨w, r'⟩ := q
    obtain ⟨hw, rfl⟩ := hq
    exact ⟨respond w statusOk r', by rw [command_alive hfatal, complete_ok], congrArg (respond · statusOk r') hw⟩

/-- Settles O34: the two algorithms of a kind end alike. -/
theorem readAnswersWhatPeekAnswers : Obligations.ReadAnswersWhatPeekAnswers := by
  intro n pk rd s t r hpair h hok
  obtain ⟨x, y, hpk, hrd, hxy⟩ := exec_readsAlike hpair s
  rw [hpk] at h
  rw [hrd]
  exact command_reads_what_peek_answers hxy h hok

end Sys2Proof.Machine

/-! SUPPORT. The typed scalar family (spec R65 to R89): the Boolean and Byte reads, what the groups of a varint stand for, what a varint add
appends, what a scan decodes, and why each integer read takes back what the add of its kind wrote. -/

namespace Sys2Proof.Machine

/-! ## The Boolean and Byte reads -/

/-- The shared shape of the fixed-width reads and peeks, below WP: both answer the field at RP, and the read moves RP past it. -/
theorem complete_field_reads {s : State} (hs : s.Inv) {n : Nat} (hn1 : 1 ≤ n) (hn : n ≤ 32) (havail : s.rp.toNat + n ≤ s.wp.toNat) :
    ∃ r, s.HoldsField s.rp.toNat n r
      ∧ complete s (peekField s n) = .next { s with rsp := some (responseWord 0x00 r) }
      ∧ ∃ t, complete s (readField s n) = .next t ∧ t = { s with rp := t.rp, rsp := some (responseWord 0x00 r) }
        ∧ t.rp.toNat = s.rp.toNat + n := by
  obtain ⟨r, hr, hfield⟩ := hs.bitFetch_holdsField hn1 hn havail
  refine ⟨r, hfield, ?_, respond { s with rp := s.rp + BitVec.ofNat 32 n } statusOk r, ?_, rfl, rp_add_toNat havail⟩
  · rw [peekField_ok havail hr, complete_ok]
    rfl
  · rw [readField_ok havail hr, complete_ok]

/-- Settles O28: past CheckLive the four commands are the reads and peeks of 1 and of 8 bits. -/
theorem boolAndByteReadsReturnTheField : Obligations.BoolAndByteReadsReturnTheField := by
  refine ⟨fun s hs hready havail => ?_, fun s hs hready havail => ?_⟩
  · have hpeek : exec .peekbool s = complete s (peekField s 1) := command_checkLive_of_ready hready _
    have hread : exec .readbool s = complete s (readField s 1) := command_checkLive_of_ready hready _
    rw [hpeek, hread]
    exact complete_field_reads hs (by decide) (by decide) havail
  · have hpeek : exec .peekbyte s = complete s (peekField s 8) := command_checkLive_of_ready hready _
    have hread : exec .readbyte s = complete s (readField s 8) := command_checkLive_of_ready hready _
    rw [hpeek, hread]
    exact complete_field_reads hs (by decide) (by decide) havail

/-! ## One codec for the four integer adds -/

/-- Settles O43: the four adds are one `addVarint`, of the operand each forms, and those forms are the ones named. -/
theorem integerAddsShareOneCodec : Obligations.IntegerAddsShareOneCodec :=
  fun _ _ => ⟨rfl, rfl, rfl⟩

/-! ## The groups of a varint -/

section Groups

/-- Bit 7 of a byte says whether it is 128 or more. -/
theorem byte_getLsbD_seven (b : Byte) : b.getLsbD 7 = decide (128 ≤ b.toNat) := by
  have hmsb := BitVec.msb_eq_decide b
  rwa [BitVec.msb_eq_getLsbD_last] at hmsb

/-- A varint of more than one group: the first continues, and the rest is a varint (R78). -/
theorem isVarint_cons {b : Byte} {g : List Byte} (hg : g ≠ []) : isVarint (b :: g) = (b.getLsbD 7 && isVarint g) := by
  cases g with
  | nil => exact absurd rfl hg
  | cons c g => rfl

/-- The first group `VarintGroups` takes of a value, its low seven bits (R78). -/
theorem lowGroup_toNat (v : Word) : ((v.extractLsb' 0 7).setWidth 8 : Byte).toNat = v.toNat % 2 ^ 7 := by
  rw [BitVec.toNat_setWidth, BitVec.extractLsb'_toNat, Nat.shiftRight_zero]
  omega

/-- Setting the continuation bit of a group that has none adds 128 to it. -/
theorem continue_toNat {b : Byte} (hb : b.toNat < 2 ^ 7) : (b ||| 0x80).toNat = b.toNat + 2 ^ 7 := by
  rw [BitVec.toNat_or, Nat.or_comm, Nat.add_comm]
  exact (Nat.two_pow_add_eq_or_of_lt hb 1).symm

theorem varintGroupsFrom_ne_nil (k : Nat) (v : Word) : varintGroupsFrom (k + 1) v ≠ [] := by
  rw [varintGroupsFrom]
  split <;> exact List.cons_ne_nil _ _

/-- A value of at most seven bits is one group (R78). -/
theorem varintGroupsFrom_encodes_last (k : Nat) {v : Word} (hv : v.toNat < 2 ^ 7) :
    isVarint (varintGroupsFrom (k + 1) v) = true ∧ groupsValue (varintGroupsFrom (k + 1) v) = v.toNat := by
  have hlow := lowGroup_toNat v
  rw [varintGroupsFrom, if_pos ((shiftRight_seven_eq_zero_iff v).2 hv)]
  simp only [isVarint, groupsValue, byte_getLsbD_seven, Bool.not_eq_true', decide_eq_false_iff_not]
  omega

/-- With a bound on the groups that the value fits, `VarintGroups` makes a complete varint that stands for the value (R78, R83). -/
theorem varintGroupsFrom_encodes {k : Nat} {v : Word} (hv : v.toNat < 2 ^ (7 * (k + 1))) :
    isVarint (varintGroupsFrom (k + 1) v) = true ∧ groupsValue (varintGroupsFrom (k + 1) v) = v.toNat := by
  induction k generalizing v with
  | zero => exact varintGroupsFrom_encodes_last 0 hv
  | succ k ih =>
    by_cases hlast : v.toNat < 2 ^ 7
    · exact varintGroupsFrom_encodes_last (k + 1) hlast
    · have hlow := lowGroup_toNat v
      have hrest : (v >>> 7).toNat = v.toNat / 2 ^ 7 := by
        rw [BitVec.toNat_ushiftRight, Nat.shiftRight_eq_div_pow]
      have hfits : (v >>> 7).toNat < 2 ^ (7 * (k + 1)) := by
        rw [hrest]
        exact Nat.div_lt_of_lt_mul (by rwa [← Nat.pow_add, Nat.add_comm 7])
      obtain ⟨hvarint, hvalue⟩ := ih hfits
      have hfirst := continue_toNat (b := (v.extractLsb' 0 7).setWidth 8) (by omega)
      rw [varintGroupsFrom, if_neg (mt (shiftRight_seven_eq_zero_iff v).1 hlast)]
      refine ⟨?_, ?_⟩
      · rw [isVarint_cons (varintGroupsFrom_ne_nil k _), hvarint, byte_getLsbD_seven, hfirst]
        simp
      · rw [groupsValue, hvalue, hrest, hfirst]
        omega

theorem varintGroups_isVarint (v : Word) : isVarint (varintGroups v) = true :=
  (varintGroupsFrom_encodes (k := 4) (v.isLt.trans (by decide))).1

theorem groupsValue_varintGroups (v : Word) : groupsValue (varintGroups v) = v.toNat :=
  (varintGroupsFrom_encodes (k := 4) (v.isLt.trans (by decide))).2

end Groups

/-! ## What writing the groups leaves -/

section Write

variable {s t : State} {g : List Byte}

/-- The first group at its position, the others from 8 bits above it on. -/
theorem State.groupsAt_cons {p : Nat} {b : Byte} :
    s.GroupsAt p (b :: g) ↔ (∀ k < 8, s.bit (p + k) = b.getLsbD k) ∧ s.GroupsAt (p + 8) g := by
  constructor
  · intro h
    refine ⟨fun k hk => h 0 (Nat.succ_pos _) k hk, fun j hj k hk => ?_⟩
    have hbit := h (j + 1) (Nat.succ_lt_succ hj) k hk
    rwa [Nat.mul_succ, Nat.add_comm (8 * j), ← Nat.add_assoc] at hbit
  · rintro ⟨hfirst, hrest⟩ j hj k hk
    cases j with
    | zero => exact hfirst k hk
    | succ j =>
      rw [Nat.mul_succ, Nat.add_comm (8 * j), ← Nat.add_assoc]
      exact hrest j (Nat.lt_of_succ_lt_succ hj) k hk

/-- Groups that fit the buffer can all be written. -/
theorem State.Inv.bitAddBytes_ok (hs : s.Inv) (hlive : s.live = true) (hroom : s.wp.toNat + 8 * g.length ≤ 32 * s.capw.toNat) :
    ∃ t, Machine.bitAddBytes s g = .ok t := by
  induction g generalizing s with
  | nil => exact ⟨s, rfl⟩
  | cons b g ih =>
    rw [List.length_cons] at hroom
    have hbits := hs.bits_lt
    have hfits := wordIndex_succ_lt_of_room (p := s.wp.toNat) (n := 8) hs.guardWordFits (by omega) (by omega)
    obtain ⟨u, hu⟩ : ∃ u, Machine.bitAdd s 8 (b.setWidth 32) = .ok u := ⟨_, bitAdd_ok hfits⟩
    have hwp := bitAdd_wp_toNat hu (by omega)
    obtain ⟨t, ht⟩ := ih (hs.bitAdd hlive (by omega) (by omega) hu) (by rwa [bitAdd_live hu]) (by rw [bitAdd_capw hu]; omega)
    exact ⟨t, bind_eq_ok.2 ⟨u, hu, ht⟩⟩

/-- Writing groups keeps every bit below the cursor (R64). -/
theorem bitAddBytes_bit_below (hlt : s.wp.toNat + 8 * g.length < 2 ^ 32) (h : bitAddBytes s g = .ok t) {p : Nat}
    (hp : p < s.wp.toNat) : t.bit p = s.bit p := by
  induction g generalizing s with
  | nil => cases h; rfl
  | cons b g ih =>
    rw [List.length_cons] at hlt
    obtain ⟨u, hu, h⟩ := bind_eq_ok.1 h
    obtain ⟨hwp, hbelow, -⟩ := bitAdd_appends (by decide) (by omega) hu
    rw [ih (by omega) h (by omega), hbelow p hp]

/-- The groups stand at the old cursor, one after the other (R80): each is a field that the later writes keep. -/
theorem bitAddBytes_groupsAt (hlt : s.wp.toNat + 8 * g.length < 2 ^ 32) (h : bitAddBytes s g = .ok t) :
    t.GroupsAt s.wp.toNat g := by
  induction g generalizing s with
  | nil => exact fun j hj => absurd hj (Nat.not_lt_zero j)
  | cons b g ih =>
    rw [List.length_cons] at hlt
    obtain ⟨u, hu, h⟩ := bind_eq_ok.1 h
    obtain ⟨hwp, -, hfield, -⟩ := bitAdd_appends (by decide) (by omega) hu
    refine State.groupsAt_cons.2 ⟨fun k hk => ?_, ?_⟩
    · rw [bitAddBytes_bit_below (by omega) h (by omega), hfield k hk, BitVec.getLsbD_setWidth]
      simp [show k < 32 by omega]
    · rw [← hwp]
      exact ih (by omega) h

/-- No word changes but the two of each group's write (R56, R80). -/
theorem bitAddBytes_word (hlt : s.wp.toNat + 8 * g.length < 2 ^ 32) (h : bitAddBytes s g = .ok t) {i : Nat}
    (hi : ∀ j < g.length, i ≠ (s.wp.toNat + 8 * j) / 32 ∧ i ≠ (s.wp.toNat + 8 * j) / 32 + 1) : t.word i = s.word i := by
  induction g generalizing s with
  | nil => cases h; rfl
  | cons b g ih =>
    rw [List.length_cons] at hlt hi
    obtain ⟨u, hu, h⟩ := bind_eq_ok.1 h
    obtain ⟨hwp, -, -, -, hwords⟩ := bitAdd_appends (by decide) (by omega) hu
    obtain ⟨hlow, hhigh⟩ := hi 0 (Nat.succ_pos _)
    rw [ih (by omega) h fun j hj => ?_, hwords i hlow hhigh]
    have hnext := hi (j + 1) (Nat.succ_lt_succ hj)
    rwa [Nat.mul_succ, Nat.add_comm (8 * j), ← Nat.add_assoc, ← hwp] at hnext

/-- Writing the groups of a value appends it as a canonical varint (R78, R80, R83). -/
theorem bitAddBytes_appendsVarint {v : Word} (hlt : s.wp.toNat + 8 * (varintGroups v).length < 2 ^ 32)
    (h : bitAddBytes s (varintGroups v) = .ok t) : s.AppendsVarint t v.toNat := by
  refine ⟨varintGroups v, varintGroups_isVarint v, groupsValue_varintGroups v, varintGroups_length v, bitAddBytes_wp_toNat h hlt,
    bitAddBytes_groupsAt hlt h, fun p hp => bitAddBytes_bit_below hlt h hp, fun i hi => bitAddBytes_word hlt h fun j hj => ?_⟩
  omega

end Write

/-! ## The varint adds -/

section VarintAdd

variable {s t : State}

theorem addVarint_ok (hlive : s.live = true) {v : Word} (hroom : s.wp.toNat + 8 * (varintGroups v).length ≤ 32 * s.capw.toNat)
    (ht : bitAddBytes s (varintGroups v) = .ok t) : addVarint s v = .ok (t, 0) := by
  simp only [addVarint, checkLive_ok hlive, checkRoom_ok hroom, ht, ok_bind, pure_eq_ok]

/-- The shared shape of the varint adds, where all groups fit: it answers OK, 0 and appends the varint (R72, R75, R80, R86). -/
theorem command_addVarint_appends (hs : s.Inv) (hready : s.Ready) {v : Word}
    (hroom : s.wp.toNat + 8 * groupCount v.toNat ≤ 32 * s.capw.toNat) :
    ∃ t, command s (addVarint s v) = .next t ∧ t.Answers 0x00 0 ∧ t = { s with wp := t.wp, words := t.words, rsp := t.rsp }
      ∧ s.AppendsVarint t v.toNat := by
  obtain ⟨hlive, hfatal⟩ := hready
  have hbits := hs.bits_lt
  rw [← varintGroups_length] at hroom
  obtain ⟨t, ht⟩ := hs.bitAddBytes_ok hlive hroom
  have happends : s.AppendsVarint t v.toNat := bitAddBytes_appendsVarint (by omega) ht
  refine ⟨respond t statusOk 0, ?_, rfl, ?_, happends⟩
  · rw [command_alive hfatal, addVarint_ok hlive hroom ht, complete_ok]
  · rw [bitAddBytes_eq_ok ht]
    rfl

end VarintAdd

/-- Settles O38: both commands are one `addVarint`, of the operand and of its low half. -/
theorem unsignedAddsAppendAVarint : Obligations.UnsignedAddsAppendAVarint := by
  refine ⟨fun s v hs hready hroom => command_addVarint_appends hs hready hroom, fun s v hs hready hroom => ?_⟩
  rw [← ushortOperand_toNat] at hroom ⊢
  exact command_addVarint_appends hs hready hroom

/-- Settles O39: both commands are one `addVarint`, of the zig-zag code of the operand and of its sign-extended low half. -/
theorem signedAddsAppendAVarint : Obligations.SignedAddsAppendAVarint := by
  refine ⟨fun s v hs hready hroom => ?_, fun s v hs hready hroom => ?_⟩
  · rw [← zigZag_toNat_eq] at hroom ⊢
    exact command_addVarint_appends hs hready hroom
  · rw [← shortOperand_toInt, ← zigZag_toNat_eq] at hroom ⊢
    exact command_addVarint_appends hs hready hroom

/-! ## What a scan decodes -/

section Scan

variable {s : State}

/-- A fetched byte is the group that stands there (R28, R79). -/
theorem State.HoldsField.setWidth_eq {p : Nat} {w : Word} {b : Byte} (h : s.HoldsField p 8 w)
    (hb : ∀ k < 8, s.bit (p + k) = b.getLsbD k) : w.setWidth 8 = b := by
  refine BitVec.eq_of_getLsbD_eq fun k hk => ?_
  rw [BitVec.getLsbD_setWidth, h k (by omega), hb k hk]
  simp [hk]

/-- One round of the scan over a group that stands below WP (R79). -/
theorem varintScanFrom_group (hs : s.Inv) {pos : Nat} {b : Byte} (hend : pos + 8 ≤ s.wp.toNat)
    (hb : ∀ k < 8, s.bit (pos + k) = b.getLsbD k) (k : Nat) (res : Word) (shift : Nat) :
    varintScanFrom s (k + 1) pos res shift =
      if b.getLsbD 7 then varintScanFrom s k (pos + 8) (addGroup res b shift) (shift + 7)
      else .ok (addGroup res b shift, pos + 8) := by
  obtain ⟨w, hw, hfield⟩ := hs.bitFetch_holdsField (by decide) (by decide) hend
  rw [varintScanFrom_succ, checkAvail_ok hend, ok_bind, hw, ok_bind, hfield.setWidth_eq hb, pure_eq_ok]

/-- The groups' value added to `res` from bit `shift` on: what a scan that has read `res` ends with (R79). -/
def withGroups (res : Word) (shift n : Nat) : Word := res ||| BitVec.ofNat 32 (n <<< shift)

/-- Bits above 31 of a group's contribution are dropped, those above 63 by the shift already (R79). -/
theorem addGroup_eq (res : Word) (b : Byte) (shift : Nat) : addGroup res b shift = withGroups res shift (b.toNat % 128) := by
  have hlow : (b.extractLsb' 0 7).toNat = b.toNat % 128 := by
    rw [BitVec.extractLsb'_toNat, Nat.shiftRight_zero]
  rw [addGroup, withGroups]
  congr 1
  apply BitVec.eq_of_toNat_eq
  rw [BitVec.toNat_setWidth, BitVec.toNat_shiftLeft, BitVec.toNat_setWidth, hlow, BitVec.toNat_ofNat, Nat.mod_mod_of_dvd _ (by decide),
    Nat.mod_eq_of_lt (a := b.toNat % 128) (by omega)]

/-- A group and then the groups after it, seven bits higher, are the groups together (R78, R79). -/
theorem withGroups_cons (res : Word) (shift : Nat) {m : Nat} (hm : m < 2 ^ 7) (n : Nat) :
    withGroups (withGroups res shift m) (shift + 7) n = withGroups res shift (m + 2 ^ 7 * n) := by
  have hsum : m + 2 ^ 7 * n = m ||| n <<< 7 := by
    rw [Nat.add_comm, Nat.two_pow_add_eq_or_of_lt hm, Nat.or_comm, Nat.shiftLeft_eq, Nat.mul_comm]
  rw [withGroups, withGroups, withGroups, hsum, Nat.shiftLeft_or_distrib, BitVec.ofNat_or, BitVec.or_assoc, ← Nat.shiftLeft_add,
    Nat.add_comm 7]

/-- A scan over a complete varint answers its value and the position after its last group (R79). -/
theorem varintScanFrom_varint (hs : s.Inv) {g : List Byte} {k pos : Nat} (hg : isVarint g = true) (hk : g.length ≤ k)
    (hend : pos + 8 * g.length ≤ s.wp.toNat) (hat : s.GroupsAt pos g) (res : Word) (shift : Nat) :
    varintScanFrom s k pos res shift = .ok (withGroups res shift (groupsValue g), pos + 8 * g.length) := by
  induction g generalizing k pos res shift with
  | nil => cases hg
  | cons b g ih =>
    rw [List.length_cons] at hk hend
    obtain ⟨k, rfl⟩ : ∃ j, k = j + 1 := ⟨k - 1, by omega⟩
    obtain ⟨hfirst, hrest⟩ := State.groupsAt_cons.1 hat
    rw [varintScanFrom_group hs (by omega) hfirst, addGroup_eq]
    by_cases hlast : g = []
    · subst hlast
      have hstop : b.getLsbD 7 = false := by simpa [isVarint] using hg
      rw [hstop]
      rfl
    · rw [isVarint_cons hlast, Bool.and_eq_true] at hg
      obtain ⟨hmore, hg⟩ := hg
      rw [if_pos hmore, ih hg (by omega) (by omega) hrest, withGroups_cons _ _ (by omega), List.length_cons, groupsValue]
      congr 2
      omega

theorem varintScan_varint (hs : s.Inv) {g : List Byte} (h : s.VarintAtRp g) :
    varintScan s = .ok (BitVec.ofNat 32 (groupsValue g), s.rp.toNat + 8 * g.length) := by
  obtain ⟨hg, hlen, hend, hat⟩ := h
  rw [varintScan, varintScanFrom_varint hs hg hlen hend hat, withGroups, Nat.shiftLeft_zero]
  exact congrArg (fun x => Except.ok (x, _)) (BitVec.zero_or ..)

end Scan

/-! ## The varint reads -/

section VarintRead

variable {s : State} {g : List Byte}

/-- The shared shape of the varint peeks over a complete varint (R74, R77, R82, R88). -/
theorem command_peekVarint (hs : s.Inv) (hready : s.Ready) (h : s.VarintAtRp g) (f : Word → Word) :
    command s (peekVarint s f) = .next { s with rsp := some (responseWord 0x00 (f (BitVec.ofNat 32 (groupsValue g)))) } := by
  refine (command_checkLive_of_ready hready _).trans ?_
  rw [varintScan_varint hs h]
  rfl

/-- The shared shape of the varint reads over a complete varint: RP moves past the groups (R73, R76, R81, R87). -/
theorem command_readVarint (hs : s.Inv) (hready : s.Ready) (h : s.VarintAtRp g) (f : Word → Word) :
    ∃ t, command s (readVarint s f) = .next t ∧ t.rp.toNat = s.rp.toNat + 8 * g.length
      ∧ t = { s with rp := t.rp, rsp := some (responseWord 0x00 (f (BitVec.ofNat 32 (groupsValue g)))) } := by
  obtain ⟨-, -, hend, -⟩ := id h
  have hwp := s.wp.isLt
  refine ⟨respond { s with rp := BitVec.ofNat 32 (s.rp.toNat + 8 * g.length) } statusOk (f (BitVec.ofNat 32 (groupsValue g))),
    (command_checkLive_of_ready hready _).trans ?_, ?_, rfl⟩
  · rw [varintScan_varint hs h]
    rfl
  · rw [respond_rp, BitVec.toNat_ofNat, Nat.mod_eq_of_lt (by omega)]

end VarintRead

/-! ## The results of the varint reads -/

/-- READUSHORT's result is the value's low 16 bits (R76). -/
theorem ushortResult_ofNat (n : Nat) : ushortResult (BitVec.ofNat 32 n) = BitVec.ofNat 32 (n % 2 ^ 16) := by
  apply BitVec.eq_of_toNat_eq
  rw [ushortResult, BitVec.toNat_setWidth, BitVec.toNat_setWidth, BitVec.toNat_ofNat, BitVec.toNat_ofNat]
  omega

/-- READSHORT's result is the low 16 bits of the signed number, taken as signed (R73). -/
theorem shortResult_toInt (v : Word) : (shortResult v).toInt = (BitVec.ofInt 16 v.toInt).toInt := by
  have hlow : (v.setWidth 16 : Half) = BitVec.ofInt 16 v.toInt := by
    apply BitVec.eq_of_toNat_eq
    rw [BitVec.toNat_setWidth, BitVec.toNat_ofInt, BitVec.toInt_eq_toNat_cond]
    split_ifs <;> omega
  rw [shortResult, BitVec.toInt_signExtend_of_le (by decide), hlow]

/-- `UnZigZag` halves a code, and complements the half of an odd one (R85). -/
theorem unZigZag_toInt (c : Word) : (unZigZag c).toInt = zigZagValue c.toNat := by
  have hc := c.isLt
  have hhalf : (c >>> 1).toNat = c.toNat / 2 := by rw [BitVec.toNat_ushiftRight, Nat.shiftRight_eq_div_pow, Nat.pow_one]
  have hodd : ((c.extractLsb' 0 1).setWidth 32 : Word).toNat = c.toNat % 2 := by
    rw [BitVec.toNat_setWidth, BitVec.extractLsb'_toNat, Nat.shiftRight_zero]
    omega
  rw [unZigZag, zigZagValue]
  rcases Nat.mod_two_eq_zero_or_one c.toNat with h | h
  · have hbit : (c.extractLsb' 0 1).setWidth 32 = (0 : Word) := BitVec.eq_of_toNat_eq (hodd.trans h)
    have hspread : (0 : Word) - 0 = 0#32 := rfl
    rw [hbit, hspread, BitVec.xor_zero, BitVec.toInt_eq_toNat_cond, hhalf, if_pos (by omega), if_pos h]
  · have hbit : (c.extractLsb' 0 1).setWidth 32 = (1 : Word) := BitVec.eq_of_toNat_eq (hodd.trans h)
    have hspread : (0 : Word) - 1 = BitVec.allOnes 32 := rfl
    rw [hbit, hspread, BitVec.xor_allOnes, BitVec.toInt_eq_toNat_cond, BitVec.toNat_not, hhalf, if_neg (by omega), if_neg (by omega)]
    omega

/-- Settles O40: one scan stands behind the four commands, and the 16-bit ones narrow its value. -/
theorem unsignedReadsDecodeTheVarint : Obligations.UnsignedReadsDecodeTheVarint := by
  intro s g hs hready h
  rw [← ushortResult_ofNat]
  exact ⟨command_peekVarint hs hready h id, command_readVarint hs hready h id, command_peekVarint hs hready h ushortResult,
    command_readVarint hs hready h ushortResult⟩

/-- Settles O41: one scan stands behind the four commands, which answer `UnZigZag` of its value, the 16-bit ones narrowed. -/
theorem signedReadsDecodeTheVarint : Obligations.SignedReadsDecodeTheVarint := by
  intro s g hs hready h
  refine ⟨unZigZag (BitVec.ofNat 32 (groupsValue g)), shortResult (unZigZag (BitVec.ofNat 32 (groupsValue g))), ?_,
    shortResult_toInt _, command_peekVarint hs hready h unZigZag, command_readVarint hs hready h unZigZag,
    command_peekVarint hs hready h fun c => shortResult (unZigZag c), command_readVarint hs hready h fun c => shortResult (unZigZag c)⟩
  rw [unZigZag_toInt, BitVec.toNat_ofNat]

/-! ## An integer add and the read after it -/

/-- The zig-zag map loses nothing (R85). -/
theorem zigZagValue_zigZagCode (v : Int) : zigZagValue (zigZagCode v).toNat = v := by
  unfold zigZagValue zigZagCode
  split_ifs <;> omega

theorem unZigZag_zigZag (v : Word) : unZigZag (zigZag v) = v := by
  rw [← BitVec.toInt_inj, unZigZag_toInt, zigZag_toNat_eq, zigZagValue_zigZagCode]

theorem ushortResult_ushortOperand (v : Word) : ushortResult (ushortOperand v) = BitVec.ofNat 32 (v.toNat % 2 ^ 16) := by
  have hnat : ushortOperand v = BitVec.ofNat 32 (v.toNat % 2 ^ 16) := by
    rw [← ushortOperand_toNat, BitVec.ofNat_toNat, BitVec.setWidth_eq]
  rw [hnat, ushortResult_ofNat, Nat.mod_mod]

/-- A sign-extended half narrows to itself (R72, R73). -/
theorem shortResult_shortOperand (v : Word) : shortResult (shortOperand v) = BitVec.ofInt 32 (v.setWidth 16 : Half).toInt := by
  rw [← BitVec.toInt_inj, shortResult_toInt, shortOperand_toInt, BitVec.ofInt_toInt]
  exact (shortOperand_toInt v).symm

theorem groupCount_le (n : Nat) : groupCount n ≤ 5 := by
  unfold groupCount
  split_ifs <;> decide

/-- At `RP = WP` with room for five groups, a varint read takes back what a varint add appended, and the buffer is finished again
(R83 (a), R89 (a)). -/
theorem addVarint_then_readVarint {s : State} (hs : s.Inv) (hready : s.Ready) (hfin : s.rp = s.wp)
    (hroom : s.wp.toNat + 40 ≤ 32 * s.capw.toNat) (v : Word) (f : Word → Word) :
    ∃ t u, command s (addVarint s v) = .next t ∧ command t (readVarint t f) = .next u ∧ u.Answers 0x00 (f v) ∧ u.rp = u.wp := by
  have hcount := groupCount_le v.toNat
  obtain ⟨t, ht, -, hframe, g, hvarint, hvalue, hlen, hwp, hat, -⟩ := command_addVarint_appends hs hready (v := v) (by omega)
  have hinv : t.Inv := (exec_ends (i := .adduint v) ht).inv hs
  have hreadyt : t.Ready := by rw [hframe]; exact hready
  have hrp : t.rp = s.wp := by rw [hframe]; exact hfin
  have hvarintAt : t.VarintAtRp g := ⟨hvarint, by omega, by rw [hrp]; omega, by rwa [hrp]⟩
  obtain ⟨u, hu, hrpu, hframeu⟩ := command_readVarint hinv hreadyt hvarintAt f
  refine ⟨t, u, ht, hu, ?_, ?_⟩
  · rw [hframeu, hvalue, BitVec.ofNat_toNat, BitVec.setWidth_eq]
  · have hwpu : u.wp = t.wp := by rw [hframeu]
    rw [← BitVec.toNat_inj, hwpu, hrpu, hrp, hwp]

/-- Settles O42: the four pairs are one varint add and one varint read, and each read's result form undoes its add's operand form. -/
theorem integerRoundTrips : Obligations.IntegerRoundTrips := by
  intro s v hs hready hfin hroom
  have hpair := addVarint_then_readVarint hs hready hfin hroom
  have hshort := hpair (zigZag (shortOperand v)) fun c => shortResult (unZigZag c)
  rw [unZigZag_zigZag, shortResult_shortOperand] at hshort
  have hint := hpair (zigZag v) unZigZag
  rw [unZigZag_zigZag] at hint
  have hushort := hpair (ushortOperand v) ushortResult
  rw [ushortResult_ushortOperand] at hushort
  exact ⟨hpair v id, hint, hushort, hshort⟩

end Sys2Proof.Machine

/-! SUPPORT. The varint family (spec R78, R79, R83): the last group of a varint and what it says of the value, why `VarintGroups` is
canonical, and where a scan ends that meets continuing groups only. -/

namespace Sys2Proof.Machine

/-! ## The last group of a varint -/

theorem groupsValue_lt (g : List Byte) : groupsValue g < 2 ^ (7 * g.length) := by
  induction g with
  | nil => exact Nat.one_pos
  | cons b g ih =>
    rw [groupsValue, List.length_cons, Nat.mul_succ, Nat.pow_add]
    omega

/-- The last group stands above the seven bits of each group before it (R78). -/
theorem groupsValue_concat (g : List Byte) (b : Byte) :
    groupsValue (g ++ [b]) = groupsValue g + 2 ^ (7 * g.length) * (b.toNat % 128) := by
  induction g with
  | nil => simp [groupsValue]
  | cons c g ih =>
    rw [List.cons_append, groupsValue, groupsValue, ih, List.length_cons, Nat.mul_succ, Nat.pow_add, Nat.mul_right_comm]
    omega

/-- A varint is continuing groups and then one group with its continuation bit clear (R78). -/
theorem isVarint_concat (g : List Byte) (b : Byte) : isVarint (g ++ [b]) = (allContinue g && !b.getLsbD 7) := by
  induction g with
  | nil => rfl
  | cons c g ih =>
    rw [List.cons_append, isVarint_cons (List.append_ne_nil_of_right_ne_nil g (List.cons_ne_nil b [])), ih, allContinue, allContinue,
      List.all_cons, Bool.and_assoc]

/-- `VarintGroups` ends in a group below 128, and that group holds what the value has above the groups before it (R78). -/
theorem varintGroups_eq_concat (v : Word) :
    ∃ g b, varintGroups v = g ++ [b] ∧ b.toNat < 128 ∧ v.toNat = groupsValue g + 2 ^ (7 * g.length) * b.toNat := by
  have hvarint := varintGroups_isVarint v
  have hvalue := groupsValue_varintGroups v
  obtain hnil | ⟨g, b, hconcat⟩ := (varintGroups v).eq_nil_or_concat'
  · rw [hnil] at hvarint
    cases hvarint
  · rw [hconcat, isVarint_concat, Bool.and_eq_true, Bool.not_eq_true', byte_getLsbD_seven, decide_eq_false_iff_not] at hvarint
    have hlast : b.toNat < 128 := by omega
    rw [hconcat, groupsValue_concat, Nat.mod_eq_of_lt hlast] at hvalue
    exact ⟨g, b, hconcat, hlast, hvalue.symm⟩

/-! ## The canonical encoding -/

/-- A number of several groups does not fit one group fewer (R83 (b)). -/
theorem two_pow_le_of_groupCount {v n : Nat} (hn : n ≠ 0) (h : groupCount v = n + 1) : 2 ^ (7 * n) ≤ v := by
  unfold groupCount at h
  split_ifs at h
  · omega
  all_goals
    cases h
    omega

/-- With a last group of 0 the groups before it would hold the whole value, and one group fewer would do (R78). -/
theorem varintGroups_getLast?_ne_zero {v : Word} (hlen : (varintGroups v).length ≠ 1) : (varintGroups v).getLast? ≠ some 0 := by
  obtain ⟨g, b, hconcat, -, hvalue⟩ := varintGroups_eq_concat v
  have hcount := varintGroups_length v
  rw [hconcat, List.length_append, List.length_singleton] at hlen hcount
  have hlarge := two_pow_le_of_groupCount (by omega) hcount.symm
  have hinit := groupsValue_lt g
  rw [hconcat, List.getLast?_concat]
  rintro ⟨rfl⟩
  have hzero : (0 : Byte).toNat = 0 := rfl
  rw [hzero, Nat.mul_zero] at hvalue
  omega

/-- A fifth group is the last one, and stands for the bits of the value from 28 on (R78). -/
theorem varintGroups_fifth_le {v : Word} {b : Byte} (h : (varintGroups v)[4]? = some b) : b.toNat ≤ 0x0F := by
  obtain ⟨g, c, hconcat, -, hvalue⟩ := varintGroups_eq_concat v
  have hle := varintGroups_length_le v
  obtain ⟨hfive, -⟩ := List.getElem?_eq_some_iff.1 h
  rw [hconcat, List.length_append, List.length_singleton] at hle hfive
  have hfour : g.length = 4 := by omega
  rw [hconcat, ← hfour, List.getElem?_concat_length] at h
  cases h
  have hv := v.isLt
  rw [hfour] at hvalue
  omega

/-- Settles O36: what the groups stand for and how many they are bounds the last of them, below by 1 and, as a fifth, above by 15. -/
theorem varintGroupsEncodeTheValue : Obligations.VarintGroupsEncodeTheValue :=
  ⟨rfl, fun v => ⟨varintGroups_isVarint v, groupsValue_varintGroups v, varintGroups_length v, varintGroups_getLast?_ne_zero,
    fun _ => varintGroups_fifth_le⟩⟩

/-! ## Scans that meet continuing groups only -/

section Scan

variable {s : State} {g : List Byte}

/-- Each continuing group below WP takes one round of the scan, and the scan goes on behind it (R79). -/
theorem varintScanFrom_allContinue (hs : s.Inv) (hg : allContinue g = true) {pos : Nat} (hend : pos + 8 * g.length ≤ s.wp.toNat)
    (hat : s.GroupsAt pos g) (k : Nat) (res : Word) (shift : Nat) :
    ∃ res' shift', varintScanFrom s (k + g.length) pos res shift = varintScanFrom s k (pos + 8 * g.length) res' shift' := by
  induction g generalizing pos res shift with
  | nil => exact ⟨res, shift, rfl⟩
  | cons b g ih =>
    rw [allContinue, List.all_cons, Bool.and_eq_true] at hg
    obtain ⟨hmore, hg⟩ := hg
    obtain ⟨hfirst, hrest⟩ := State.groupsAt_cons.1 hat
    rw [List.length_cons] at hend ⊢
    rw [← Nat.add_assoc, varintScanFrom_group hs (by omega) hfirst, if_pos hmore, Nat.mul_succ, Nat.add_comm (8 * g.length),
      ← Nat.add_assoc]
    exact ih hg (by omega) hrest _ _

/-- A scan with a round left and no whole group below WP overruns (R79). -/
theorem varintScanFrom_overrun {pos : Nat} (h : s.wp.toNat < pos + 8) (k : Nat) (res : Word) (shift : Nat) :
    varintScanFrom s (k + 1) pos res shift = throwExc .readOverrun := by
  rw [varintScanFrom_succ, checkAvail_error h, throwExc_bind]

/-- At most four continuing groups and then no whole one: a round is left, and it overruns (R79 (4)). -/
theorem varintScan_cut (hs : s.Inv) (hg : allContinue g = true) (hlen : g.length ≤ 4) (hend : s.rp.toNat + 8 * g.length ≤ s.wp.toNat)
    (hcut : s.wp.toNat < s.rp.toNat + 8 * (g.length + 1)) (hat : s.GroupsAt s.rp.toNat g) :
    varintScan s = throwExc .readOverrun := by
  obtain ⟨k, hk⟩ : ∃ k, 5 = k + 1 + g.length := ⟨4 - g.length, by omega⟩
  obtain ⟨res, shift, hscan⟩ := varintScanFrom_allContinue hs hg hend hat (k + 1) 0 0
  rw [varintScan, hk, hscan, varintScanFrom_overrun (by omega)]

/-- Five continuing groups: no round is left (R79 (1)). -/
theorem varintScan_endless (hs : s.Inv) (hg : allContinue g = true) (hlen : g.length = 5) (hend : s.rp.toNat + 40 ≤ s.wp.toNat)
    (hat : s.GroupsAt s.rp.toNat g) : varintScan s = throwExc .varintTooLong := by
  obtain ⟨res, shift, hscan⟩ := varintScanFrom_allContinue hs hg (by omega) hat 0 0 0
  rw [hlen] at hscan
  exact hscan

end Scan

section VarintReads

variable {s : State} {i : Instr}
  (hi : i ∈ [Instr.readuint, .peekuint, .readint, .peekint, .readshort, .peekshort, .readushort, .peekushort])

include hi

/-- After CheckLive each of the eight varint-reading commands scans, and only then does something of its own (R73, R74, R76, R77, R81,
R82, R87, R88). -/
theorem exec_eq_varintScan (s : State) :
    ∃ rest : Word × Nat → Except Stop (State × Word), exec i s = command s (checkLive s >>= fun _ => varintScan s >>= rest) := by
  fin_cases hi <;> exact ⟨_, rfl⟩

/-- An exception of the scan is that of the command, which leaves RP where it was (R79 (5)). -/
theorem exec_varintScan_raises (hready : s.Ready) {e : Exc} (hscan : varintScan s = throwExc e) :
    exec i s = .next (s.afterException e.code e.isFatal) := by
  obtain ⟨rest, hexec⟩ := exec_eq_varintScan hi s
  rw [hexec]
  exact command_checkLive_raises hready (by rw [hscan, throwExc_bind])

end VarintReads

/-- Settles O19: the scan of a cut varint overruns, whichever command made it. -/
theorem cutVarintTraps : Obligations.CutVarintTraps :=
  fun _ _ _ hs hready hg hlen hend hcut hat hi => exec_varintScan_raises hi hready (varintScan_cut hs hg hlen hend hcut hat)

/-- Settles O20: the scan of an endless varint gives up after its fifth group, whichever command made it. -/
theorem endlessVarintTraps : Obligations.EndlessVarintTraps :=
  fun _ _ _ hs hready hg hlen hend hat hi => exec_varintScan_raises hi hready (varintScan_endless hs hg hlen hend hat)

end Sys2Proof.Machine

/-! SUPPORT. The zig-zag family (spec R84, R85, R89): the spread low bit of a code, the code of a code's value, and which signed numbers have
a code below a bound. -/

namespace Sys2Proof.Machine

/-! ## The two maps -/

/-- `UnZigZag` complements the half of a code with its low bit set: that bit, taken from 0, is spread over all 32 (R85). -/
theorem unZigZag_eq_xor_ite (c : Word) : unZigZag c = (c >>> 1) ^^^ (if c.getLsbD 0 then 0xFFFFFFFF else 0) := by
  rw [unZigZag, ← BitVec.setWidth_eq_extractLsb' (by decide : 1 ≤ 32), BitVec.setWidth_one]
  cases c.getLsbD 0 with
  | true => rfl
  | false => rfl

/-- Every code is the code of the number it stands for (R85): an even one of a number from 0 up, an odd one of a number below. -/
theorem zigZagCode_zigZagValue (n : Nat) : zigZagCode (zigZagValue n) = n := by
  rw [zigZagCode, zigZagValue]
  split_ifs <;> omega

theorem zigZag_unZigZag (c : Word) : zigZag (unZigZag c) = c := by
  rw [← BitVec.toNat_inj, zigZag_toNat_eq, unZigZag_toInt, zigZagCode_zigZagValue, Int.toNat_natCast]

/-- Settles O35: the words' maps are the numbers' maps, and those undo each other. -/
theorem zigZagIsABijection : Obligations.ZigZagIsABijection :=
  ⟨fun _ => rfl, zigZag_toNat, unZigZag_eq_xor_ite, unZigZag_toInt, unZigZag_zigZag, zigZag_unZigZag⟩

/-! ## The cost of a signed value -/

/-- The codes below `2 * m` are those of the `2 * m` numbers around zero (R84, R89 (b)). -/
theorem zigZagCode_toNat_lt_iff (v : Int) (m : Nat) : (zigZagCode v).toNat < 2 * m ↔ -(m : Int) ≤ v ∧ v < m := by
  rw [zigZagCode]
  split_ifs <;> omega

/-- The group count of a signed number's code, by the number's own thresholds (R89 (b)). -/
theorem groupCount_zigZagCode (v : Int) : groupCount (zigZagCode v).toNat =
    if -2 ^ 6 ≤ v ∧ v < 2 ^ 6 then 1
    else if -2 ^ 13 ≤ v ∧ v < 2 ^ 13 then 2
    else if -2 ^ 20 ≤ v ∧ v < 2 ^ 20 then 3
    else if -2 ^ 27 ≤ v ∧ v < 2 ^ 27 then 4
    else 5 := by
  have hbound (k : Nat) : (zigZagCode v).toNat < 2 ^ (k + 1) ↔ -2 ^ k ≤ v ∧ v < 2 ^ k := by
    rw [Nat.pow_succ', zigZagCode_toNat_lt_iff, Nat.cast_pow, Nat.cast_ofNat]
  simp only [groupCount, hbound 6, hbound 13, hbound 20, hbound 27]

/-- Settles O37: a varint's length is the group count of its value, here of a zig-zag code. -/
theorem signedVarintCost : Obligations.SignedVarintCost := fun v => by
  rw [varintGroups_length, zigZag_toNat_eq, groupCount_zigZagCode]

end Sys2Proof.Machine

/-! SUPPORT. The framing family (spec R90, R92 to R94): which frames FROMARRAY refuses, that a byte has one highest set bit, that the frame's
last byte has the sentinel for it, and what a byte of the buffer says of its bits. -/

namespace Sys2Proof.Machine

/-! ## Frames that are refused -/

/-- Settles O21: the frame's size passes, and one of the two tests of R93 fails; the last byte is read only where there is one. -/
theorem badFrameTraps : Obligations.BadFrameTraps := by
  intro s l hidle hl hbad
  refine command_checkNotLive_raises (e := .badFrame) hidle ?_
  rw [checkFrameSize_ok hl, ok_bind]
  by_cases hempty : l.toNat = 0
  · rw [if_pos hempty, throwExc_bind]
  · have hlast : s.frameByte (l.toNat - 1) = 0 := hbad.resolve_left hempty
    rw [if_neg hempty, memRead_ok (by omega), ok_bind, if_pos hlast, throwExc_bind]

/-- Only the zero byte has no highest set bit (R90). -/
theorem eq_zero_of_hsb_eq_zero {b : Byte} (h : hsb b = 0) : b = 0 := by
  by_contra hb
  obtain ⟨k, -, hk, -⟩ := hsb_of_ne_zero hb
  omega

/-- Settles O44: the scan finds the highest set bit, and a frame whose last byte has none is refused. -/
theorem hsbFindsTheHighestBit : Obligations.HsbFindsTheHighestBit :=
  ⟨rfl, fun _ => hsb_of_ne_zero, fun s l hidle _ hl hhsb => badFrameTraps s l hidle hl (.inr (eq_zero_of_hsb_eq_zero hhsb))⟩

/-! ## The highest set bit and the bytes of the buffer -/

/-- A byte has at most one highest set bit. -/
theorem highestBit_unique {b : Byte} {k m : Nat} (hk : b.getLsbD k = true) (habovek : ∀ j, k < j → b.getLsbD j = false)
    (hm : b.getLsbD m = true) (habovem : ∀ j, m < j → b.getLsbD j = false) : k = m := by
  rcases Nat.lt_trichotomy k m with hlt | heq | hgt
  · exact absurd hm (by simp [habovek m hlt])
  · exact heq
  · exact absurd hk (by simp [habovem k hgt])

section Bytes

variable {s t : State} {b c : Byte}

/-- Bit position `p` lies in byte `p / 8`, at its bit `p % 8` (R28, R30). -/
theorem State.HoldsByte.bit {p : Nat} (h : s.HoldsByte (p / 8) b) : s.bit p = b.getLsbD (p % 8) := by
  rw [← h (p % 8) (Nat.mod_lt p (by decide)), Nat.div_add_mod]

/-- Two buffers that agree on the bits of a byte hold the same byte there. -/
theorem State.HoldsByte.byte_eq {j : Nat} (hb : s.HoldsByte j b) (hc : t.HoldsByte j c)
    (hbits : ∀ k < 8, s.bit (8 * j + k) = t.bit (8 * j + k)) : b = c :=
  BitVec.eq_of_getLsbD_eq fun k hk => by rw [← hb k hk, hbits k hk, hc k hk]

/-- The sentinel is the highest set bit of its byte (R92, R94). -/
theorem State.Appends.sentinel_highest (h : s.Appends t 1 1) (hb : t.HoldsByte (s.wp.toNat / 8) b) :
    b.getLsbD (s.wp.toNat % 8) = true ∧ ∀ j, s.wp.toNat % 8 < j → b.getLsbD j = false := by
  obtain ⟨-, -, hset, hclear, -⟩ := h
  refine ⟨hb.bit ▸ hset 0 Nat.one_pos, fun j hj => ?_⟩
  by_cases hj8 : j < 8
  · rw [← hb j hj8]
    exact hclear _ (by omega) (by omega)
  · exact b.getLsbD_of_ge j (by omega)

/-- A sentinel appended where one stood before changes no bit of its byte or below it (R94 (c)). -/
theorem State.Appends.sentinel_again (h : s.Appends t 1 1) (hb : s.HoldsByte (s.wp.toNat / 8) b)
    (hset : b.getLsbD (s.wp.toNat % 8) = true) (hclear : ∀ j, s.wp.toNat % 8 < j → b.getLsbD j = false)
    {p : Nat} (hp : p < 8 * (s.wp.toNat / 8 + 1)) : t.bit p = s.bit p := by
  obtain ⟨-, hbelow, hsentinel, habove, -⟩ := h
  rcases Nat.lt_trichotomy p s.wp.toNat with hlt | rfl | hgt
  · exact hbelow p hlt
  · rw [hb.bit, hset]
    exact hsentinel 0 Nat.one_pos
  · have hbyte : p / 8 = s.wp.toNat / 8 := by omega
    rw [habove p hgt (by omega), (hbyte ▸ hb : s.HoldsByte (p / 8) b).bit, hclear _ (by omega)]

end Bytes

/-! ## The round trips of R94 -/

/-- Settles O47: the frame's last byte ends in the sentinel, so FROMARRAY recovers WP from it, and its bytes are the buffer's bytes. -/
theorem framingRoundTrip : Obligations.FramingRoundTrip := by
  intro s d l hs hready hd hroom hlen hld
  obtain ⟨t, ht, hframe, hanswer, happends, hbytes, -⟩ := toarrayWritesTheFrame s d hs hready hd hroom
  have hreadyt : t.Ready := by rw [hframe]; exact hready
  have hcfg : t.cfg = s.cfg := by rw [hframe]
  have hinvt : t.Inv := (exec_ends ht).inv hs
  have hbyte : ∀ j < l.toNat, t.HoldsByte j (t.frameByte j) := fun j hj => hbytes j (by omega) (by omega)
  have hlast : l.toNat - 1 = s.wp.toNat / 8 := by omega
  obtain ⟨hset, hclear⟩ := happends.sentinel_highest (hbyte _ (by omega))
  have hnonzero : t.frameByte (s.wp.toNat / 8) ≠ 0 := fun hzero => by simp [hzero] at hset
  have hrelease := (releaseAndClear t hreadyt).1
  obtain ⟨v, k, hv, hvframe, -, hcapw, -, hkset, hkclear, hwp, hvbytes, -⟩ :=
    fromarrayRebuildsTheBuffer _ l ((exec_ends hrelease).inv hinvt) ⟨rfl, hreadyt.2⟩ (by omega) (by rw [hcfg]; omega)
      (hlast ▸ hnonzero)
  rw [hlast] at hkset hkclear hwp
  have hk : k = s.wp.toNat % 8 := highestBit_unique hkset hkclear hset hclear
  refine ⟨t, _, v, ht, ?_, hrelease, hv, by rw [hvframe], by rw [hvframe], ?_, hcapw, fun p hp => ?_⟩
  · rwa [← hlen, BitVec.ofNat_toNat, BitVec.setWidth_eq] at hanswer
  · rw [← BitVec.toNat_inj]
    omega
  · obtain ⟨-, hbelow, -⟩ := happends
    rw [(hvbytes (p / 8) (by omega)).bit, ← hbelow p hp, (hbyte (p / 8) (by omega)).bit]
    rfl

/-- Settles O48: FROMARRAY puts WP on the highest set bit of the last byte, and TOARRAY writes its sentinel over that bit. -/
theorem reframingGivesTheSameFrame : Obligations.ReframingGivesTheSameFrame := by
  intro s d l hs hidle hpos hld hd hlast
  obtain ⟨t, k, ht, htframe, -, hcapw, hk, hset, hclear, hwp, hbytes, -⟩ :=
    fromarrayRebuildsTheBuffer s l hs hidle hpos (hld.trans hd) hlast
  have hreadyt : t.Ready := by rw [htframe]; exact ⟨rfl, hidle.2⟩
  have hcfg : t.cfg = s.cfg := by rw [htframe]
  obtain ⟨u, hu, -, hanswer, happends, hubytes, -⟩ :=
    toarrayWritesTheFrame t d ((exec_ends ht).inv hs) hreadyt (by rwa [hcfg]) (by omega)
  have hlastIdx : l.toNat - 1 = t.wp.toNat / 8 := by omega
  have hkIdx : k = t.wp.toNat % 8 := by omega
  have hlen : t.wp.toNat / 8 + 1 = l.toNat := by omega
  rw [hlastIdx, hkIdx] at hset hclear
  refine ⟨t, u, ht, hu, ?_, fun j hj => ?_⟩
  · rwa [hlen, BitVec.ofNat_toNat, BitVec.setWidth_eq] at hanswer
  · exact (hubytes j (by omega) (by omega)).byte_eq (hbytes j hj) fun i hi =>
      happends.sentinel_again (hbytes _ (by omega)) hset hclear (by omega)

end Sys2Proof.Machine

/-! SUPPORT. The exceptions family (spec R95 to R100): the codes and their class bit, what of CAUSE and FATAL a command that succeeds keeps,
what a dead engine does with each move of the host, and the first check of each command as a trap. -/

namespace Sys2Proof.Machine

/-! ## Codes and classes -/

/-- R97: a code carries its class in bit 7. -/
theorem Exc.isFatal_eq_code_bit (e : Exc) : e.isFatal = e.code.getLsbD 7 := by
  cases e <;> rfl

/-- Settles O9: the codes are those of the model's table, and the class is read off each code. -/
theorem exceptionCodesAndClasses : Obligations.ExceptionCodesAndClasses :=
  ⟨rfl, rfl, rfl, rfl, rfl, rfl, rfl, rfl, rfl, rfl, Exc.isFatal_eq_code_bit⟩

/-! ## Traps of the first check -/

/-- Settles O13: the command's first check is CheckLive, before any operand is looked at. -/
theorem notLiveTraps : Obligations.NotLiveTraps := by
  intro i s ⟨hlive, hfatal⟩ hacq hrdcsr
  obtain ⟨body, hexec⟩ := exec_eq_checkLive hacq hrdcsr s
  rw [hexec, command_alive hfatal, checkLive_error hlive, throwExc_bind, complete_throwExc]
  rfl

/-- Settles O14: the command's first check is CheckNotLive, before any operand is looked at. -/
theorem alreadyLiveTraps : Obligations.AlreadyLiveTraps := by
  intro i s ⟨hlive, hfatal⟩ hacq
  obtain ⟨body, hexec⟩ := exec_eq_checkNotLive hacq s
  rw [hexec, command_alive hfatal, checkNotLive_error hlive, throwExc_bind, complete_throwExc]
  rfl

/-- A raw command of an illegal width goes no further than CheckWidth (R99). -/
theorem command_checkWidth_raises {s : State} {n : Byte} (h : s.Ready) (hn : n.toNat = 0 ∨ 32 < n.toNat)
    (body : Except Stop (State × Word)) :
    command s (checkLive s >>= fun _ => checkWidth n >>= fun _ => body) = .next (s.afterException 0x82 true) :=
  command_checkLive_raises (e := .badWidth) h (by rw [checkWidth_error hn, throwExc_bind])

/-- Settles O15: in the three raw commands CheckWidth stands right after CheckLive, before the checks of room and data. -/
theorem badWidthTraps : Obligations.BadWidthTraps :=
  fun _ _ _ h hn => ⟨command_checkWidth_raises h hn _, command_checkWidth_raises h hn _, command_checkWidth_raises h hn _⟩

/-! ## Precise exceptions -/

/-- No command that succeeds writes CAUSE or FATAL (R16, R18). -/
theorem Succeeds.cause_fatal_eq {i : Instr} {s u : State} (h : Succeeds i s u) : u.cause = s.cause ∧ u.fatal = s.fatal := by
  cases h with
  | unchanged | advance | release | clear => exact ⟨rfl, rfl⟩
  | field _ _ _ _ h | new _ _ _ _ h => rw [bitAdd_eq h]; exact ⟨rfl, rfl⟩
  | groups _ _ _ h => rw [bitAddBytes_eq_ok h]; exact ⟨rfl, rfl⟩
  | toarray _ _ _ ht h => rw [copyWords_eq_ok h, bitAdd_eq ht]; exact ⟨rfl, rfl⟩
  | fromarray _ _ _ _ h => rw [loadFrame_eq_ok h]; exact ⟨rfl, rfl⟩

/-- An exception of an engine that is not dead sets FATAL to its class (R96, R97). -/
theorem raise_of_not_fatal {s : State} (h : s.fatal = false) (e : Exc) :
    raise s e = { s with cause := e.code, fatal := e.isFatal, rsp := some (responseWord e.code 0) } := by
  simp [raise, respond, h]

/-- Settles O10, by the three ends of a command: success keeps CAUSE and FATAL, Dead and an exception start from the state before it. -/
theorem exceptionsArePrecise : Obligations.ExceptionsArePrecise := by
  intro i s t h
  rcases exec_ends h with ⟨hfatal, rfl⟩ | ⟨hfatal, e, rfl⟩ | ⟨u, r, hu, rfl⟩
  · exact .inr (.inl ⟨hfatal, rfl⟩)
  · exact .inr (.inr ⟨hfatal, e, raise_of_not_fatal hfatal e⟩)
  · exact .inl ⟨r, rfl, hu.cause_fatal_eq⟩

/-! ## The dead engine -/

/-- Every CSR number up to 6 has a CSR (R12). -/
theorem exists_csrValue_of_le {n : Byte} (s : State) (h : n.toNat ≤ 6) : ∃ v, csrValue s n = some v := by
  obtain ⟨⟨k, hk⟩⟩ := n
  change k ≤ 6 at h
  interval_cases k
  all_goals exact ⟨_, rfl⟩

section Dead

variable {s t : State} {w : CommandWord}

/-- A legal RDCSR is performed in every state (R51, R54): its word names a CSR that exists. -/
theorem issue_rdcsr {n : Byte} (h : decode w = .ok (.rdcsr n)) (s : State) :
    ∃ v, csrValue s n = some v ∧ issue w s = .next (respond s statusOk v) := by
  have hwf : (Instr.rdcsr n).WellFormed := (encodeDecodeRoundTrip w _ h).2
  obtain ⟨v, hv⟩ := exists_csrValue_of_le s (of_decide_eq_true hwf)
  exact ⟨v, hv, (issue_of_decode_ok h s).trans (exec_rdcsr_of_some hv)⟩

/-- Whichever lifecycle check a command begins with, the dead test stands before it (R51). -/
theorem exec_of_fatal {i : Instr} (hfatal : s.fatal = true) (hi : i.isRdcsr = false) :
    exec i s = .next (respond s statusDead 0) := by
  cases hacq : i.acquires with
  | true =>
    obtain ⟨body, hexec⟩ := exec_eq_checkNotLive hacq s
    rw [hexec, command_dead hfatal]
  | false =>
    obtain ⟨body, hexec⟩ := exec_eq_checkLive hacq hi s
    rw [hexec, command_dead hfatal]

/-- A dead engine answers Dead to every word that is not a legal RDCSR (R100). -/
theorem issue_of_fatal (hfatal : s.fatal = true) (h : ∀ n, decode w ≠ .ok (.rdcsr n)) :
    issue w s = .next (respond s statusDead 0) := by
  cases hdec : decode w with
  | error e => rw [issue_of_decode_error hdec, illegalCommand_eq, if_pos hfatal]
  | ok i =>
    have hi : i.isRdcsr = false := by
      cases i with
      | rdcsr n => exact absurd hdec (h n)
      | _ => rfl
    rw [issue_of_decode_ok hdec, exec_of_fatal hfatal hi]

/-- A dead engine ends every word with a response and no other change (R100). -/
theorem issue_of_fatal_next (hfatal : s.fatal = true) (h : issue w s = .next t) : t = { s with rsp := t.rsp } := by
  by_cases hrdcsr : ∃ n, decode w = .ok (.rdcsr n)
  · obtain ⟨n, hdec⟩ := hrdcsr
    obtain ⟨v, -, hissue⟩ := issue_rdcsr hdec s
    cases hissue.symm.trans h
    rfl
  · cases (issue_of_fatal hfatal (not_exists.1 hrdcsr)).symm.trans h
    rfl

/-- No move of the host but reset changes anything of a dead engine but the frame memory and the response (R100). -/
theorem step_of_fatal_next (hfatal : s.fatal = true) (hreset : ∀ rest, s.host ≠ .reset :: rest) (h : step s = .next t) :
    t = { s with frame := t.frame, rsp := t.rsp, host := t.host } := by
  match hhost : s.host with
  | [] =>
    cases (step_idle hhost).symm.trans h
    rfl
  | .command w :: rest =>
    rw [step_command hhost] at h
    rw [issue_of_fatal_next (s := { s with host := rest }) hfatal h]
  | .writeFrame a b :: rest =>
    rw [step_writeFrame hhost] at h
    rw [(hostWrite_next h).2]
  | .reset :: rest => exact absurd hhost (hreset rest)

end Dead

/-- Settles O12, move by move: a word is answered and changes nothing else, a host write goes to the frame memory, reset clears FATAL. -/
theorem deadUntilReset : Obligations.DeadUntilReset := by
  refine ⟨fun s w rest hhost hfatal => ⟨fun n hdec => ?_, fun hdec => ?_⟩, fun s t => step_of_fatal_next, fun s t rest _ hhost h => ?_⟩
  · rw [step_command hhost]
    exact issue_rdcsr hdec { s with host := rest }
  · rw [step_command hhost]
    exact issue_of_fatal hfatal hdec
  · cases (step_reset hhost).symm.trans h
    rfl

end Sys2Proof.Machine

/-! SUPPORT. The reset family (spec R106, R107): what the host's reset leaves in each register and in both memories. -/

namespace Sys2Proof.Machine

/-- Settles O8: the step is `applyReset` of the state without the move, and taking the move off the host's list keeps every other field. -/
theorem resetClearsTheRegisters : Obligations.ResetClearsTheRegisters := by
  intro s rest hhost
  exact ⟨_, step_reset hhost,
    applyReset_rp _, applyReset_wp _, applyReset_capw _, applyReset_live _, applyReset_fatal _, applyReset_cause _,
    applyReset_cfg _, applyReset_words _, applyReset_frame _⟩

end Sys2Proof.Machine
